-- ==== Sys2Proof/Word.lean ====
section
/-! DEFINITION. The value types of the core (spec/00_scope.md R8, R10, R11): 16-bit words, console bytes and 3-bit register numbers. -/

namespace Sys2Proof

/-- A 16-bit value: a register, the pc, COND, an address or one memory cell (R8, R11).
Addition of two words is modulo 65536 (R11). -/
abbrev Word := BitVec 16

/-- One byte of the console streams or of a program image. -/
abbrev Byte := BitVec 8

/-- A register field: a 3-bit unsigned index into R0-R7, every value of which is legal (R81). -/
abbrev Reg := BitVec 3

/-- The contents of memory: (address, word) pairs, an address that is not listed holding `unlistedWord`. Each contents of the 65536 cells has exactly one
canonical list (`Memory.exists_contents` and `Memory.eq_of_read`, Laws/Memory.lean). -/
abbrev MemoryContents := List (Nat × Word)

/-- What an address that a list of contents does not name holds: the reset contents of memory (R34, decision D21 of the spec). -/
def unlistedWord : Word := 0x0000#16

end Sys2Proof
end

