-- ==== Sys2Proof/Syntax.lean ====
section
/-! DEFINITION. The instructions: one constructor per row of spec/opcode_table.json, its arguments the row's fields from the left of the word to the right (spec/30_encoding.md R74, R75). -/

namespace Sys2Proof

/-- An instruction. The bits a row marks `x` are kept (`ign`, `ignHi`, `ignLo`): no effect reads them (R83),
but a fault record holds the whole instruction word (R33), so none may be lost. -/
inductive Instr where
  /-- ADD, register form (R100). -/
  | addReg (dr sr1 : Reg) (ign : BitVec 2) (sr2 : Reg)
  /-- ADD, immediate form (R101). -/
  | addImm (dr sr1 : Reg) (imm5 : BitVec 5)
  /-- AND, register form (R102). -/
  | andReg (dr sr1 : Reg) (ign : BitVec 2) (sr2 : Reg)
  /-- AND, immediate form (R103). -/
  | andImm (dr sr1 : Reg) (imm5 : BitVec 5)
  /-- NOT (R104). -/
  | not (dr sr : Reg) (ign : BitVec 6)
  /-- LD (R110). -/
  | ld (dr : Reg) (off9 : BitVec 9)
  /-- LDI (R111). -/
  | ldi (dr : Reg) (off9 : BitVec 9)
  /-- LDR (R112). -/
  | ldr (dr baseR : Reg) (off6 : BitVec 6)
  /-- LEA (R113). -/
  | lea (dr : Reg) (off9 : BitVec 9)
  /-- ST (R114). -/
  | st (sr : Reg) (off9 : BitVec 9)
  /-- STI (R115). -/
  | sti (sr : Reg) (off9 : BitVec 9)
  /-- STR (R116). -/
  | str (sr baseR : Reg) (off6 : BitVec 6)
  /-- BR; the mask is n, z, p from bit 2 to bit 0 (R82, R120). -/
  | br (nzp : BitVec 3) (off9 : BitVec 9)
  /-- JMP; RET is JMP R7 (R122). -/
  | jmp (ignHi : BitVec 3) (baseR : Reg) (ignLo : BitVec 6)
  /-- JSR (R123). -/
  | jsr (off11 : BitVec 11)
  /-- JSRR (R124). -/
  | jsrr (ignHi : BitVec 2) (baseR : Reg) (ignLo : BitVec 6)
  /-- TRAP x20 (R132). -/
  | trapGetc (ign : BitVec 4)
  /-- TRAP x21 (R133). -/
  | trapOut (ign : BitVec 4)
  /-- TRAP x22 (R134). -/
  | trapPuts (ign : BitVec 4)
  /-- TRAP x23 (R135). -/
  | trapIn (ign : BitVec 4)
  /-- TRAP x24 (R136). -/
  | trapPutsp (ign : BitVec 4)
  /-- TRAP x25 (R137). -/
  | trapHalt (ign : BitVec 4)
  /-- TRAP with any other vector (R138). -/
  | trapUnknown (ign : BitVec 4) (vec8 : BitVec 8)
  /-- Opcode 1000 (R151). -/
  | op8 (ign : BitVec 12)
  /-- Opcode 1101, the reserved opcode (R150). -/
  | reserved (ign : BitVec 12)
deriving DecidableEq, Repr

end Sys2Proof
end

