-- ==== Sys2Proof/WellFormed.lean ====
section
/-! DEFINITION. Which terms of Instr stand for an instruction word (spec/30_encoding.md R84, R85). -/

namespace Sys2Proof

/-- The vectors that have a service (R130): 0x20 GETC, 0x21 OUT, 0x22 PUTS, 0x23 IN, 0x24 PUTSP, 0x25 HALT. -/
def serviceVectors : List (BitVec 8) := [0x20#8, 0x21#8, 0x22#8, 0x23#8, 0x24#8, 0x25#8]

/-- The generic TRAP row covers exactly the vectors without a service (R85); every other field takes every value of its width. -/
def Instr.wf (i : Instr) : Bool :=
  match i with
  | .addReg _ _ _ _ => true
  | .addImm _ _ _ => true
  | .andReg _ _ _ _ => true
  | .andImm _ _ _ => true
  | .not _ _ _ => true
  | .ld _ _ => true
  | .ldi _ _ => true
  | .ldr _ _ _ => true
  | .lea _ _ => true
  | .st _ _ => true
  | .sti _ _ => true
  | .str _ _ _ => true
  | .br _ _ => true
  | .jmp _ _ _ => true
  | .jsr _ => true
  | .jsrr _ _ _ => true
  | .trapGetc _ => true
  | .trapOut _ => true
  | .trapPuts _ => true
  | .trapIn _ => true
  | .trapPutsp _ => true
  | .trapHalt _ => true
  | .trapUnknown _ vec8 => !serviceVectors.contains vec8
  | .op8 _ => true
  | .reserved _ => true

end Sys2Proof
end

