-- ==== Sys2Proof/Decode.lean ====
section
/-! DEFINITION. From an instruction word to an instruction and back (spec/30_encoding.md R70 to R85), and the opcode table as data.
Field positions, opcode numbers and vector numbers are decisions D1 to D6 of the spec: UNVERIFIED, notes/assumptions/7.md, unsafe. -/

namespace Sys2Proof

/-- `w[lo+n-1:lo]` (R10). -/
def field (w : Word) (lo n : Nat) : BitVec n := w.extractLsb' lo n

/-- The opcode, I[15:12] (R72). -/
def opcode (w : Word) : BitVec 4 := field w 12 4

/-- The TRAP service selected by I[7:0] (R80, R130). -/
def decodeTrap (ign : BitVec 4) (vec8 : BitVec 8) : Instr :=
  if vec8 = 0x20#8 then .trapGetc ign
  else if vec8 = 0x21#8 then .trapOut ign
  else if vec8 = 0x22#8 then .trapPuts ign
  else if vec8 = 0x23#8 then .trapIn ign
  else if vec8 = 0x24#8 then .trapPutsp ign
  else if vec8 = 0x25#8 then .trapHalt ign
  else .trapUnknown ign vec8

/-- The instruction a word is (opcode map R73, fields R74 and R75). Every word is exactly one instruction (R85), so no word
is rejected here: the encodings R84 calls illegal are instructions of their own, whose effect is to fault.
The fifteen tests name fifteen of the sixteen opcodes; the last line is reached by 1111, TRAP, alone. -/
def decode (w : Word) : Instr :=
  if opcode w = 0b0000#4 then .br (field w 9 3) (field w 0 9)
  else if opcode w = 0b0001#4 then
    if field w 5 1 = 0#1 then .addReg (field w 9 3) (field w 6 3) (field w 3 2) (field w 0 3)
    else .addImm (field w 9 3) (field w 6 3) (field w 0 5)
  else if opcode w = 0b0010#4 then .ld (field w 9 3) (field w 0 9)
  else if opcode w = 0b0011#4 then .st (field w 9 3) (field w 0 9)
  else if opcode w = 0b0100#4 then
    if field w 11 1 = 1#1 then .jsr (field w 0 11)
    else .jsrr (field w 9 2) (field w 6 3) (field w 0 6)
  else if opcode w = 0b0101#4 then
    if field w 5 1 = 0#1 then .andReg (field w 9 3) (field w 6 3) (field w 3 2) (field w 0 3)
    else .andImm (field w 9 3) (field w 6 3) (field w 0 5)
  else if opcode w = 0b0110#4 then .ldr (field w 9 3) (field w 6 3) (field w 0 6)
  else if opcode w = 0b0111#4 then .str (field w 9 3) (field w 6 3) (field w 0 6)
  else if opcode w = 0b1000#4 then .op8 (field w 0 12)
  else if opcode w = 0b1001#4 then .not (field w 9 3) (field w 6 3) (field w 0 6)
  else if opcode w = 0b1010#4 then .ldi (field w 9 3) (field w 0 9)
  else if opcode w = 0b1011#4 then .sti (field w 9 3) (field w 0 9)
  else if opcode w = 0b1100#4 then .jmp (field w 9 3) (field w 6 3) (field w 0 6)
  else if opcode w = 0b1101#4 then .reserved (field w 0 12)
  else if opcode w = 0b1110#4 then .lea (field w 9 3) (field w 0 9)
  else decodeTrap (field w 8 4) (field w 0 8)

/-- The word of an instruction, its fields side by side as R75 lays them out. -/
def encode (i : Instr) : Word :=
  match i with
  | .addReg dr sr1 ign sr2 => 0b0001#4 ++ dr ++ sr1 ++ 0#1 ++ ign ++ sr2
  | .addImm dr sr1 imm5 => 0b0001#4 ++ dr ++ sr1 ++ 1#1 ++ imm5
  | .andReg dr sr1 ign sr2 => 0b0101#4 ++ dr ++ sr1 ++ 0#1 ++ ign ++ sr2
  | .andImm dr sr1 imm5 => 0b0101#4 ++ dr ++ sr1 ++ 1#1 ++ imm5
  | .not dr sr ign => 0b1001#4 ++ dr ++ sr ++ ign
  | .ld dr off9 => 0b0010#4 ++ dr ++ off9
  | .ldi dr off9 => 0b1010#4 ++ dr ++ off9
  | .ldr dr baseR off6 => 0b0110#4 ++ dr ++ baseR ++ off6
  | .lea dr off9 => 0b1110#4 ++ dr ++ off9
  | .st sr off9 => 0b0011#4 ++ sr ++ off9
  | .sti sr off9 => 0b1011#4 ++ sr ++ off9
  | .str sr baseR off6 => 0b0111#4 ++ sr ++ baseR ++ off6
  | .br nzp off9 => 0b0000#4 ++ nzp ++ off9
  | .jmp ignHi baseR ignLo => 0b1100#4 ++ ignHi ++ baseR ++ ignLo
  | .jsr off11 => 0b0100#4 ++ 1#1 ++ off11
  | .jsrr ignHi baseR ignLo => 0b0100#4 ++ 0#1 ++ ignHi ++ baseR ++ ignLo
  | .trapGetc ign => 0b1111#4 ++ ign ++ 0x20#8
  | .trapOut ign => 0b1111#4 ++ ign ++ 0x21#8
  | .trapPuts ign => 0b1111#4 ++ ign ++ 0x22#8
  | .trapIn ign => 0b1111#4 ++ ign ++ 0x23#8
  | .trapPutsp ign => 0b1111#4 ++ ign ++ 0x24#8
  | .trapHalt ign => 0b1111#4 ++ ign ++ 0x25#8
  | .trapUnknown ign vec8 => 0b1111#4 ++ ign ++ vec8
  | .op8 ign => 0b1000#4 ++ ign
  | .reserved ign => 0b1101#4 ++ ign

/-- `word_k = bytes[2k] * 256 + bytes[2k+1]`: a program image is big-endian (R181). -/
def wordOfBytes (hi lo : Byte) : Word := hi ++ lo

/-- The words of an image of an even number of bytes; a last byte without a partner is dropped (an odd image is rejected
before this is asked, R181). -/
def wordsOfBytes : List Byte → List Word
  | hi :: lo :: rest => wordOfBytes hi lo :: wordsOfBytes rest
  | [_] => []
  | [] => []

/-- Why a sequence of words holds no instruction at its front. -/
inductive DecodeError where
  /-- There is no word left. -/
  | noWord
deriving DecidableEq, Repr

/-- The instruction at the front of a sequence of words, and the words after it: every instruction is one word (R71). -/
def decodeWords : List Word → Except DecodeError (Instr × List Word)
  | [] => .error .noWord
  | w :: rest => .ok (decode w, rest)

/-- The host's reading of an opcode-table word of `nbits` bits, the bits above `nbits` zero. A number that
does not fit the one 16-bit word of an instruction (R71) is no instruction. -/
def decodeTableWord (nbits w : Nat) : Option Instr :=
  if nbits ≤ 16 ∧ w < 2 ^ nbits then some (decode (BitVec.ofNat 16 w)) else none

/-- A row of the opcode table: its name, its format (R75), and which words are its own. -/
structure Row where
  mnemonic : String
  format : String
  mask : Word
  pattern : Word
deriving DecidableEq, Repr

/-- The row's fixed bits are those of the word. -/
def rowSelects (r : Row) (w : Word) : Bool := w &&& r.mask == r.pattern

def operateRows : List Row :=
  [⟨"ADD", "OPR", 0xF020#16, 0x1000#16⟩, ⟨"ADD", "OPI", 0xF020#16, 0x1020#16⟩,
   ⟨"AND", "OPR", 0xF020#16, 0x5000#16⟩, ⟨"AND", "OPI", 0xF020#16, 0x5020#16⟩,
   ⟨"NOT", "NOT", 0xF000#16, 0x9000#16⟩]

def dataMoveRows : List Row :=
  [⟨"LD", "PC9", 0xF000#16, 0x2000#16⟩, ⟨"LDI", "PC9", 0xF000#16, 0xA000#16⟩,
   ⟨"LDR", "B6", 0xF000#16, 0x6000#16⟩, ⟨"LEA", "PC9", 0xF000#16, 0xE000#16⟩,
   ⟨"ST", "PC9", 0xF000#16, 0x3000#16⟩, ⟨"STI", "PC9", 0xF000#16, 0xB000#16⟩,
   ⟨"STR", "B6", 0xF000#16, 0x7000#16⟩]

def controlRows : List Row :=
  [⟨"BR", "BR", 0xF000#16, 0x0000#16⟩, ⟨"JMP", "JMP", 0xF000#16, 0xC000#16⟩,
   ⟨"JSR", "JSR", 0xF800#16, 0x4800#16⟩, ⟨"JSRR", "JSRR", 0xF800#16, 0x4000#16⟩]

def serviceRows : List Row :=
  [⟨"TRAP_GETC", "TRAP", 0xF0FF#16, 0xF020#16⟩, ⟨"TRAP_OUT", "TRAP", 0xF0FF#16, 0xF021#16⟩,
   ⟨"TRAP_PUTS", "TRAP", 0xF0FF#16, 0xF022#16⟩, ⟨"TRAP_IN", "TRAP", 0xF0FF#16, 0xF023#16⟩,
   ⟨"TRAP_PUTSP", "TRAP", 0xF0FF#16, 0xF024#16⟩, ⟨"TRAP_HALT", "TRAP", 0xF0FF#16, 0xF025#16⟩]

def faultRows : List Row :=
  [⟨"TRAP__unknown_vector", "TRAP", 0xF000#16, 0xF000#16⟩,
   ⟨"OP8__opcode_1000__unnamed__RTI_in_the_standard_LC-3", "NONE", 0xF000#16, 0x8000#16⟩,
   ⟨"RESERVED__opcode_1101", "NONE", 0xF000#16, 0xD000#16⟩]

/-- spec/opcode_table.json, row for row and in its order: the six service rows stand before the generic TRAP row (R85). -/
def opcodeTable : List Row := operateRows ++ dataMoveRows ++ controlRows ++ serviceRows ++ faultRows

/-- Which row of the opcode table an instruction is an instance of: its mnemonic and format. -/
def rowName (i : Instr) : String × String :=
  match i with
  | .addReg _ _ _ _ => ("ADD", "OPR")
  | .addImm _ _ _ => ("ADD", "OPI")
  | .andReg _ _ _ _ => ("AND", "OPR")
  | .andImm _ _ _ => ("AND", "OPI")
  | .not _ _ _ => ("NOT", "NOT")
  | .ld _ _ => ("LD", "PC9")
  | .ldi _ _ => ("LDI", "PC9")
  | .ldr _ _ _ => ("LDR", "B6")
  | .lea _ _ => ("LEA", "PC9")
  | .st _ _ => ("ST", "PC9")
  | .sti _ _ => ("STI", "PC9")
  | .str _ _ _ => ("STR", "B6")
  | .br _ _ => ("BR", "BR")
  | .jmp _ _ _ => ("JMP", "JMP")
  | .jsr _ => ("JSR", "JSR")
  | .jsrr _ _ _ => ("JSRR", "JSRR")
  | .trapGetc _ => ("TRAP_GETC", "TRAP")
  | .trapOut _ => ("TRAP_OUT", "TRAP")
  | .trapPuts _ => ("TRAP_PUTS", "TRAP")
  | .trapIn _ => ("TRAP_IN", "TRAP")
  | .trapPutsp _ => ("TRAP_PUTSP", "TRAP")
  | .trapHalt _ => ("TRAP_HALT", "TRAP")
  | .trapUnknown _ _ => ("TRAP__unknown_vector", "TRAP")
  | .op8 _ => ("OP8__opcode_1000__unnamed__RTI_in_the_standard_LC-3", "NONE")
  | .reserved _ => ("RESERVED__opcode_1101", "NONE")

end Sys2Proof
end

