-- ==== Sys2Proof/Config.lean ====
section
/-! DEFINITION. What is fixed for one machine: the parameters of spec/00_scope.md R8 and R9, and the constants with no body that stand for the ones R9 leaves OPEN
(DESIGN CHOICE, notes/assumptions/5.md, safe). The values that R9 takes from a decision of the spec are UNVERIFIED (notes/assumptions/6.md, unsafe). -/

namespace Sys2Proof

/-- The keyboard-status read policy (R9 `kb_policy`, R51, R52). -/
inductive Config.KbPolicy where
  /-- A poll that finds no byte answers "not ready" (R51). -/
  | nonBlocking
  /-- A read of the keyboard status waits for a byte (R52). -/
  | blocking
deriving DecidableEq, Repr

/-- The named parameters of R9, all of them, in its order: every rule takes them as arguments, and a machine is reset with one value of this type, which no
step changes. -/
structure Config.Params where
  /-- `HALT_PC`, the terminal sentinel (R184). -/
  haltPc : Word
  /-- `KBSR_ADDR`, the keyboard status cell (R48). -/
  kbsrAddr : Word
  /-- `KBDR_ADDR`, the keyboard data cell (R48). -/
  kbdrAddr : Word
  /-- `KBSR_READY`, what a poll that obtained a byte leaves in KBSR (R51). -/
  kbsrReady : Word
  /-- `KBSR_NOT_READY`, what a poll that obtained none leaves in KBSR (R51). -/
  kbsrNotReady : Word
  /-- `reg_reset`, the general registers at reset (R34). -/
  regReset : Vector Word 8
  /-- `cond_reset`, COND at reset (R34). -/
  condReset : Word
  /-- `mem_reset`, the 65536 cells at reset (R34). -/
  memReset : MemoryContents
  /-- `trap_links_r7`: does a TRAP with a known vector write R7 (R131)? OPEN (D7). -/
  trapLinksR7 : Bool
  /-- `trap_sets_cc`: do GETC and IN set the condition codes (R132, R135)? OPEN (D8). -/
  trapSetsCc : Bool
  /-- `in_prompt`: the bytes IN writes before it reads (R135). OPEN (D9). -/
  inPrompt : List Byte
  /-- `in_echo`: does IN write back the byte it read (R135)? OPEN (D9). -/
  inEcho : Bool
  /-- `halt_banner`: the bytes HALT writes (R137). OPEN (D10). -/
  haltBanner : List Byte
  /-- `kb_policy`: the keyboard-status read policy (R51, R52). -/
  kbPolicy : Config.KbPolicy
deriving DecidableEq, Repr

/-- The value of the OPEN parameter `trap_links_r7` (R131, D7): no value is known. -/
opaque Config.trapLinksR7 : Bool

/-- The value of the OPEN parameter `trap_sets_cc` (R28, R132, R135, D8): no value is known. -/
opaque Config.trapSetsCc : Bool

/-- The value of the OPEN parameter `in_prompt` (R135, D9): no value is known. -/
opaque Config.inPrompt : List Byte

/-- The value of the OPEN parameter `in_echo` (R135, D9): no value is known. -/
opaque Config.inEcho : Bool

/-- The value of the OPEN parameter `halt_banner` (R137, D10): no value is known. -/
opaque Config.haltBanner : List Byte

/-- R9's column of spec values; an OPEN parameter has no known value. -/
def Config.params : Config.Params where
  haltPc := 0xFFFF#16
  kbsrAddr := 0xFE00#16
  kbdrAddr := 0xFE02#16
  kbsrReady := 0x8000#16
  kbsrNotReady := 0x0000#16
  regReset := Vector.replicate 8 0x0000#16
  condReset := 0x0002#16
  memReset := []
  trapLinksR7 := Config.trapLinksR7
  trapSetsCc := Config.trapSetsCc
  inPrompt := Config.inPrompt
  inEcho := Config.inEcho
  haltBanner := Config.haltBanner
  kbPolicy := .nonBlocking

/-- The conventional load origin (R8). -/
def Config.loadOrigin : Word := 0x3000#16

end Sys2Proof
end

