-- ==== Sys2Proof/Machine/State.lean ====
section
/-! DEFINITION. The machine's state (spec/10_state.md R20 to R36), the host behind its console (R37 to R43), and the ways a step can stop. -/

namespace Sys2Proof.Machine

/-- The fatal error kinds (R160). -/
inductive ErrorKind where
  /-- The image cannot be opened (R180). Raised by the loader. -/
  | imageNotFound
  /-- Odd byte count, or no byte at all (R181, R183). Raised by the loader. -/
  | imageMalformed
  /-- Opcode 1101 or opcode 1000 (R150, R151). -/
  | reservedOpcode
  /-- TRAP with a vector that has no service (R138). -/
  | unknownTrapVector
  /-- A console primitive answered failure (R43). -/
  | consoleIOFailure
deriving DecidableEq, Repr

/-- `(kind, fault_pc, word)`: the error kind, the address of the instruction that raised it, and its word (R33). -/
structure FaultRecord where
  kind : ErrorKind
  faultPc : Word
  word : Word
deriving DecidableEq, Repr

/-- The run status (R33). `Halted` is not stored: it is `running` with the pc at HALT_PC. -/
inductive RunStatus where
  | running
  | faulted (record : FaultRecord)
deriving DecidableEq, Repr

/-- One answer of the host to the core's requests for input (R40, R41). -/
inductive HostAnswer where
  /-- The next input byte has arrived. -/
  | byte (b : Byte)
  /-- No byte is available at this moment: a poll that meets it answers `None`, a blocking read waits past it. -/
  | notReady
  /-- The host reports failure (R43). -/
  | failure
deriving DecidableEq, Repr

/-- What the host's input does once the listed answers are used up. -/
inductive InputEnd where
  /-- The input is at its end: a poll answers `None`, a blocking read answers failure (R43, D18). -/
  | closed
  /-- The host never answers again: a poll answers `None`, a blocking read waits forever (R41). -/
  | silent
  /-- The host supplies this byte whenever it is asked, for ever: the supply under which a string scan can run on without end (R191). -/
  | endless (b : Byte)
deriving DecidableEq, Repr

/-- The host's side of the console: the draws R40 to R42 leave to it, written down, and the output stream it has accepted.
This is the model's own record of an agent outside the core (R20, R35). DESIGN CHOICE, notes/assumptions/3.md, safe. -/
structure Console where
  /-- The answers to come, the next one first: one stream for polls and blocking reads (D17). -/
  pending : List HostAnswer
  /-- What follows them. -/
  inputEnd : InputEnd
  /-- How many more bytes the host accepts before it answers a write with failure; `none`: it accepts every byte (R42, R43). -/
  writesLeft : Option Nat
  /-- The bytes accepted so far, the oldest first (R42). -/
  output : List Byte
deriving DecidableEq, Repr

/-- The stored contents of memory: (address, word) pairs in the canonical form `Memory.wf`. The smallest addressable unit is
the 16-bit word (R45), so a cell is a word. An address that is not listed reads as `unlistedWord` (notes/assumptions/1.md). -/
abbrev Memory := MemoryContents

/-- The canonical form: addresses strictly rising and below 65536, and no entry equal to what an unlisted address reads as. -/
def Memory.wf : Memory → Bool
  | [] => true
  | c :: rest => decide (c.1 < 65536) && decide (c.2 ≠ unlistedWord) && rest.all (fun d => decide (c.1 < d.1)) && Memory.wf rest

/-- The machine (R20): registers, pc, COND, memory and run status; and, as the model's own fields, the host behind the
console (R35) and the parameters of R9. -/
structure State where
  /-- R0-R7 (R22). -/
  regs : Vector Word 8
  /-- The program counter (R25). -/
  pc : Word
  /-- The status register COND (R27). -/
  cond : Word
  /-- The 65536 memory cells, KBSR and KBDR among them (R32). -/
  mem : Memory
  /-- `status` (R33). -/
  status : RunStatus
  /-- The host behind the console (R35, R40 to R43). -/
  console : Console
  /-- The parameters (R9); no step changes them. -/
  config : Config.Params
deriving DecidableEq, Repr

/-- Why there is no next state. None of these is an error of the program that the spec lets the core report: those errors
lead to a next state whose status is `faulted` (R164). -/
inductive Fault where
  /-- Raised by step when the pc is HALT_PC: the run has ended halted and no step exists (R20, R184). Safe: the spec gives no step here. -/
  | halted
  /-- Raised by step when the status is already `faulted`: no later step exists (R33, R165). Safe: the spec gives no step here. -/
  | stopped (record : FaultRecord)
  /-- Raised by GETC, IN and, under the blocking policy, a read of KBSR, when the host never answers: the core waits and has no step
  (R41, R191). Safe: nothing is claimed of a state after the wait. -/
  | waitingForInput
  /-- Raised by PUTS when its scan meets no zero word however far it runs: the step never completes (R134, R191). PUTSP shares the scan, and raises it only
  with parameters other than the spec's: past KBSR its scan meets a zero high byte in KBDR at the latest (notes/assumptions/9.md). Safe: nothing is claimed of a state after it. -/
  | scanNeverEnds
deriving DecidableEq, Repr

/-- Why an instruction has no meaning. -/
inductive Refusal where
  /-- Raised by exec's arm of an instruction that is not modelled; no arm of this model does. Safe: no next state is claimed. -/
  | notModelled (mnemonic : String)
deriving DecidableEq, Repr

/-- What an operation that may call the console comes to. -/
inductive Result (α : Type) where
  /-- It completes with a value. -/
  | done (v : α) (s : State)
  /-- A console primitive answered failure; the state holds what had been done before that. -/
  | failed (s : State)
  /-- It never completes. -/
  | stuck (f : Fault)
deriving DecidableEq, Repr

/-- The console at reset: nothing supplied and the input at its end, nothing written yet, and every write accepted. R34 leaves
this to the host ("as the host provides"). DESIGN CHOICE, notes/assumptions/3.md, unsafe. -/
def Console.reset : Console where
  pending := []
  inputEnd := .closed
  writesLeft := none
  output := []

/-- A machine with these parameters and this host right after reset (R34, R186 step 1), before an image is loaded. The pc is R34's "origin returned by
the loader", which only an image fixes; until then it is the conventional origin (R8). DESIGN CHOICE, notes/assumptions/2.md, unsafe. -/
def State.resetWith (params : Config.Params) (host : Console) : State where
  regs := params.regReset
  pc := Config.loadOrigin
  cond := params.condReset
  mem := params.memReset
  status := .running
  console := host
  config := params

/-- The machine right after reset, with the parameters R9 gives. -/
def State.reset : State := State.resetWith Config.params Console.reset

end Sys2Proof.Machine
end

