-- ==== Sys2Proof/Machine/Operands.lean ====
section
/-! DEFINITION. Register access, the extended immediates and offsets, and the addressing modes (spec/00_scope.md R12, R13; spec/30_encoding.md R76 to R81; spec/41_data_move.md R117). -/

namespace Sys2Proof.Machine

/-- `R[r]` (R13, R22). -/
def State.reg (s : State) (r : Reg) : Word := s.regs[r.toNat]'(r.isLt)

/-- `R[r] <- v` (R13, R22). No register is hardwired. -/
def State.setReg (s : State) (r : Reg) (v : Word) : State :=
  { s with regs := s.regs.set r.toNat v r.isLt }

/-- `pc <- v` (R13). -/
def State.setPc (s : State) (v : Word) : State := { s with pc := v }

/-- `sext_n` (R12): bit n-1 is copied into every higher bit. -/
def sext {n : Nat} (v : BitVec n) : Word := v.signExtend 16

/-- `zext_16` of a byte (R12). -/
def zext (b : Byte) : Word := b.setWidth 16

/-- `w[7:0]` (R133, R134, R136). -/
def lowByte (w : Word) : Byte := w.extractLsb' 0 8

/-- `w[15:8]` (R136). -/
def highByte (w : Word) : Byte := w.extractLsb' 8 8

/-- `pc + sext_9(I[8:0])`, the pc being the incremented one (R78, R117). -/
def pcRel9 (off9 : BitVec 9) (s : State) : Word := s.pc + sext off9

/-- `pc + sext_11(I[10:0])` (R79). -/
def pcRel11 (off11 : BitVec 11) (s : State) : Word := s.pc + sext off11

/-- `R[BaseR] + sext_6(I[5:0])` (R77, R117). -/
def baseOff6 (baseR : Reg) (off6 : BitVec 6) (s : State) : Word := s.reg baseR + sext off6

end Sys2Proof.Machine
end

