-- ==== Sys2Proof/Machine/Flags.lean ====
section
/-! DEFINITION. The condition codes (spec/10_state.md R27 to R30) and the branch test (spec/30_encoding.md R82). -/

namespace Sys2Proof.Machine

/-- The flag of a result: Z = 010, N = 100, P = 001 (R27). -/
def condFlag (v : Word) : BitVec 3 :=
  if v = 0x0000#16 then 0b010#3 else if v.getLsbD 15 then 0b100#3 else 0b001#3

/-- `(COND & 0xFFF8) | f` (R27). -/
def condAfter (v cond : Word) : Word := (cond &&& 0xFFF8#16) ||| (condFlag v).setWidth 16

/-- `setcc(v)` (R27). -/
def setcc (v : Word) (s : State) : State := { s with cond := condAfter v s.cond }

/-- `if trap_sets_cc then setcc(v)` (R132, R135). -/
def setccIfTrapSets (v : Word) (s : State) : State :=
  { s with cond := if s.config.trapSetsCc then condAfter v s.cond else s.cond }

/-- `COND[2:0]` (R27). -/
def condCodes (s : State) : BitVec 3 := s.cond.extractLsb' 0 3

/-- `(I[11:9] & COND[2:0]) != 0` (R82, R120). -/
def branchTaken (nzp : BitVec 3) (s : State) : Bool := nzp &&& condCodes s != 0#3

end Sys2Proof.Machine
end

