-- ==== Sys2Proof/Machine/Ops.lean ====
section
/-! DEFINITION. The shared operations: stored memory, the console primitives, the address decoder, the fetch, and raising a fault (spec/10_state.md R40 to R43, spec/20_memory.md R50 to R53, spec/30_encoding.md R70, spec/60_exceptions.md R164). -/

namespace Sys2Proof.Machine

/-! ## Stored memory -/

/-- The word stored at an address: the one listed, or else the reset contents (R32, R34). -/
def Memory.read : Memory → Nat → Word
  | [], _ => unlistedWord
  | c :: rest, a => if c.1 = a then c.2 else Memory.read rest a

/-- The memory without any entry for an address. -/
def Memory.erase (m : Memory) (a : Nat) : Memory := m.filter (fun c => c.1 != a)

/-- The entry put at its place in a memory that rises by address. -/
def Memory.insert : Memory → Nat → Word → Memory
  | [], a, v => [(a, v)]
  | c :: rest, a, v => if a < c.1 then (a, v) :: c :: rest else c :: Memory.insert rest a v

/-- The memory after a word is stored: the canonical form is kept, so storing the reset contents leaves no entry. -/
def Memory.write (m : Memory) (a : Nat) (v : Word) : Memory :=
  if v = unlistedWord then m.erase a else (m.erase a).insert a v

/-- `M[a]`: the stored word, with no side effect (R14). -/
def State.word (s : State) (a : Word) : Word := s.mem.read a.toNat

/-- `M[a] <- v` (R14). -/
def State.setWord (s : State) (a v : Word) : State := { s with mem := s.mem.write a.toNat v }

/-! ## Sequencing -/

/-- One operation and then another on its value and state; a failure or a wait of the first is that of both (R16). -/
def Result.bind {α β : Type} (r : Result α) (f : α → State → Result β) : Result β :=
  match r with
  | .done v s => f v s
  | .failed s => .failed s
  | .stuck w => .stuck w

/-! ## Console primitives -/

/-- The state with the host's remaining answers replaced. -/
def State.setPending (s : State) (rest : List HostAnswer) : State :=
  { s with console := { s.console with pending := rest } }

/-- `ConPoll()` (R40): a byte, which is consumed; no byte; or failure. -/
def conPoll (s : State) : Result (Option Byte) :=
  match s.console.pending with
  | .byte b :: rest => .done (some b) (s.setPending rest)
  | .notReady :: rest => .done none (s.setPending rest)
  | .failure :: rest => .failed (s.setPending rest)
  | [] =>
    match s.console.inputEnd with
    | .closed => .done none s
    | .silent => .done none s
    | .endless b => .done (some b) s

/-- What a blocking read comes to: the answers are gone through in order, waiting while no byte is ready (R41). -/
def awaitByte (s : State) : List HostAnswer → Result Byte
  | .byte b :: rest => .done b (s.setPending rest)
  | .notReady :: rest => awaitByte s rest
  | .failure :: rest => .failed (s.setPending rest)
  | [] =>
    match s.console.inputEnd with
    | .closed => .failed (s.setPending [])
    | .silent => .stuck .waitingForInput
    | .endless b => .done b (s.setPending [])

/-- `ConRead()` (R41). -/
def conRead (s : State) : Result Byte := awaitByte s s.console.pending

/-- The state once the host has accepted some bytes, `left` being what it still accepts (R42). -/
def State.accept (s : State) (bytes : List Byte) (left : Option Nat) : State :=
  { s with console := { s.console with output := s.console.output ++ bytes, writesLeft := left } }

/-- `ConWrite(b)` (R42). -/
def conWrite (b : Byte) (s : State) : Result Unit :=
  match s.console.writesLeft with
  | none => .done () (s.accept [b] none)
  | some 0 => .failed s
  | some (n + 1) => .done () (s.accept [b] (some n))

/-- `for c in bytes: ConWrite(c)` (R135, R137), stated for the whole list at once: the host accepts as many bytes as it still
accepts, and the write fails if that is fewer than there are. `conWriteAll_cons` (Laws/Ops.lean) gives it byte by byte. -/
def conWriteAll (bytes : List Byte) (s : State) : Result Unit :=
  match s.console.writesLeft with
  | none => .done () (s.accept bytes none)
  | some n =>
    if bytes.length ≤ n then .done () (s.accept bytes (some (n - bytes.length)))
    else .failed (s.accept (bytes.take n) (some 0))

/-! ## The address decoder -/

/-- What a poll that obtained a byte stores: the byte in KBDR, "ready" in KBSR (R51). -/
def storeKey (b : Byte) (s : State) : State :=
  (s.setWord s.config.kbdrAddr (zext b)).setWord s.config.kbsrAddr s.config.kbsrReady

/-- What a poll that obtained none stores: "not ready" in KBSR; KBDR stays (R51). -/
def clearKey (s : State) : State := s.setWord s.config.kbsrAddr s.config.kbsrNotReady

/-- What a poll stores for the host's answer (R51). -/
def storeAnswer (answer : Option Byte) (s : State) : State :=
  match answer with
  | some b => storeKey b s
  | none => clearKey s

/-- `KbsrPoll()` under either policy (R51, R52). -/
def kbsrPoll (s : State) : Result Unit :=
  match s.config.kbPolicy with
  | .nonBlocking =>
    (conPoll s).bind fun answer s1 => .done () (storeAnswer answer s1)
  | .blocking => (conRead s).bind fun b s1 => .done () (storeAnswer (some b) s1)

/-- `MemRead(a)`: a read of KBSR polls first; every other read is plain (R49, R50). Every read the core makes is this one (R57). -/
def memRead (a : Word) (s : State) : Result Word :=
  if a = s.config.kbsrAddr then (kbsrPoll s).bind fun _ s1 => .done (s1.word a) s1
  else .done (s.word a) s

/-- `MemWrite(a, v)`: a plain store at every address, which never fails (R53). -/
def memWrite (a v : Word) (s : State) : State := s.setWord a v

/-! ## Faults -/

/-- The faulted state (R164). `before` is the state before the instruction, whose registers, COND and parameters stand;
`done` is what the instruction had come to, whose memory (polls) and console (bytes consumed and accepted) stand;
the pc is the instruction's address. There is no return from a fault (R165) and no return-from-trap instruction (R168). -/
def takeFault (kind : ErrorKind) (ipc word : Word) (before done : State) : State :=
  { before with
    pc := ipc
    mem := done.mem
    console := done.console
    status := .faulted ⟨kind, ipc, word⟩ }

/-- `raise kind` in instruction `i` (R16). In the execute part of a step the pc is the instruction's address plus 1 (R25). -/
def raise (kind : ErrorKind) (i : Instr) (before done : State) : State :=
  takeFault kind (before.pc - 1#16) (encode i) before done

/-- The step of instruction `i`, begun in `before`, ends as its operations end: a console failure raises ConsoleIOFailure (R43). -/
def finish (i : Instr) (before : State) (r : Result Unit) : Host.Outcome State Fault Refusal :=
  match r with
  | .done _ s => .next s
  | .failed s => .next (raise .consoleIOFailure i before s)
  | .stuck f => .fault f

/-! ## The instruction cycle -/

/-- Why the machine takes no step: its status is faulted, or it is halted (R20, R33, R184). -/
def noStep (s : State) : Option Fault :=
  match s.status with
  | .faulted record => some (.stopped record)
  | .running => if s.pc = s.config.haltPc then some .halted else none

/-- The fetch: the word at the pc, read through the decoder, and the pc incremented (R70). -/
def fetch (s : State) : Result Word :=
  (memRead s.pc s).bind fun w s1 => .done w (s1.setPc (s.pc + 1#16))

/-- A fetch whose poll failed: the pc has not been incremented, and the recorded word is KBSR as it was before the poll (R70, R164). -/
def fetchFault (before done : State) : State :=
  takeFault .consoleIOFailure before.pc (before.word before.config.kbsrAddr) before done

/-- A step at this pc is a plain fetch. -/
def plainFetch (params : Config.Params) (pc : Word) : Bool := pc != params.haltPc && pc != params.kbsrAddr

/-- The pc if a step there is a plain fetch; else the first such address from the conventional origin on, which two addresses cannot put off by more than two. -/
def placePc (s : State) : Word :=
  if plainFetch s.config s.pc then s.pc
  else if plainFetch s.config Config.loadOrigin then Config.loadOrigin
  else if plainFetch s.config (Config.loadOrigin + 1#16) then Config.loadOrigin + 1#16
  else Config.loadOrigin + 2#16

/-- The state in which the next step fetches `w`: `w` stands at the pc, the status is running, and a pc that no plain fetch reads
(HALT_PC, which ends the run, and KBSR, whose fetch polls) is moved to the conventional origin or, if that is such an address too, to the next that is not. -/
def placeWord (w : Word) (s : State) : State :=
  { s with pc := placePc s, status := .running, mem := s.mem.write (placePc s).toNat w }

end Sys2Proof.Machine
end

