-- ==== Sys2Proof/Machine/Control.lean ====
section
/-! DEFINITION. BR, JMP, JSR and JSRR (spec/42_control.md R120 to R126). -/

namespace Sys2Proof.Machine

/-- `R[7] <- pc`: the return address, the pc being the incremented one (R123, R124, R131). -/
def linkR7 (s : State) : State := s.setReg 7#3 s.pc

/-- BR (R120). -/
def execBr (nzp : BitVec 3) (off9 : BitVec 9) (s : State) : Host.Outcome State Fault Refusal :=
  .next (s.setPc (if branchTaken nzp s then pcRel9 off9 s else s.pc))

/-- JMP (R122). -/
def execJmp (_ignHi : BitVec 3) (baseR : Reg) (_ignLo : BitVec 6) (s : State) : Host.Outcome State Fault Refusal :=
  .next (s.setPc (s.reg baseR))

/-- JSR (R123). -/
def execJsr (off11 : BitVec 11) (s : State) : Host.Outcome State Fault Refusal :=
  .next ((linkR7 s).setPc (pcRel11 off11 s))

/-- JSRR (R124): the base is read after R7 has been written, so JSRR R7 goes on at the return address. -/
def execJsrr (_ignHi : BitVec 2) (baseR : Reg) (_ignLo : BitVec 6) (s : State) : Host.Outcome State Fault Refusal :=
  .next ((linkR7 s).setPc ((linkR7 s).reg baseR))

end Sys2Proof.Machine
end

