-- ==== Sys2Proof/Machine/Operate.lean ====
section
/-! DEFINITION. ADD, AND and NOT (spec/40_operate.md R100 to R107). -/

namespace Sys2Proof.Machine

/-- `R[DR] <- v; setcc(v)`: how every result-producing instruction ends (R28). -/
def writeResult (dr : Reg) (v : Word) (s : State) : State := setcc v (s.setReg dr v)

/-- ADD, register form (R100). -/
def execAddReg (dr sr1 : Reg) (_ign : BitVec 2) (sr2 : Reg) (s : State) : Host.Outcome State Fault Refusal :=
  .next (writeResult dr (s.reg sr1 + s.reg sr2) s)

/-- ADD, immediate form (R101). -/
def execAddImm (dr sr1 : Reg) (imm5 : BitVec 5) (s : State) : Host.Outcome State Fault Refusal :=
  .next (writeResult dr (s.reg sr1 + sext imm5) s)

/-- AND, register form (R102). -/
def execAndReg (dr sr1 : Reg) (_ign : BitVec 2) (sr2 : Reg) (s : State) : Host.Outcome State Fault Refusal :=
  .next (writeResult dr (s.reg sr1 &&& s.reg sr2) s)

/-- AND, immediate form (R103). -/
def execAndImm (dr sr1 : Reg) (imm5 : BitVec 5) (s : State) : Host.Outcome State Fault Refusal :=
  .next (writeResult dr (s.reg sr1 &&& sext imm5) s)

/-- NOT (R104). -/
def execNot (dr sr : Reg) (_ign : BitVec 6) (s : State) : Host.Outcome State Fault Refusal :=
  .next (writeResult dr (s.reg sr ^^^ 0xFFFF#16) s)

end Sys2Proof.Machine
end

