-- ==== Sys2Proof/Machine/DataMove.lean ====
section
/-! DEFINITION. LD, LDI, LDR, LEA, ST, STI and STR (spec/41_data_move.md R110 to R118). -/

namespace Sys2Proof.Machine

/-- `v <- MemRead(ea); R[DR] <- v; setcc(v)` (R110, R111, R112). -/
def loadResult (dr : Reg) (ea : Word) (s : State) : Result Unit :=
  (memRead ea s).bind fun v s1 => .done () (writeResult dr v s1)

/-- LD (R110). -/
def execLd (dr : Reg) (off9 : BitVec 9) (s : State) : Host.Outcome State Fault Refusal :=
  finish (.ld dr off9) s (loadResult dr (pcRel9 off9 s) s)

/-- LDI (R111): the pointer is read first, then the operand. -/
def execLdi (dr : Reg) (off9 : BitVec 9) (s : State) : Host.Outcome State Fault Refusal :=
  finish (.ldi dr off9) s ((memRead (pcRel9 off9 s) s).bind fun ea s1 => loadResult dr ea s1)

/-- LDR (R112). -/
def execLdr (dr baseR : Reg) (off6 : BitVec 6) (s : State) : Host.Outcome State Fault Refusal :=
  finish (.ldr dr baseR off6) s (loadResult dr (baseOff6 baseR off6 s) s)

/-- LEA (R113): the address itself, with no memory read. -/
def execLea (dr : Reg) (off9 : BitVec 9) (s : State) : Host.Outcome State Fault Refusal :=
  .next (writeResult dr (pcRel9 off9 s) s)

/-- ST (R114). -/
def execSt (sr : Reg) (off9 : BitVec 9) (s : State) : Host.Outcome State Fault Refusal :=
  .next (memWrite (pcRel9 off9 s) (s.reg sr) s)

/-- STI (R115): the pointer is read through the decoder, then the target is written. -/
def execSti (sr : Reg) (off9 : BitVec 9) (s : State) : Host.Outcome State Fault Refusal :=
  finish (.sti sr off9) s ((memRead (pcRel9 off9 s) s).bind fun ea s1 => .done () (memWrite ea (s1.reg sr) s1))

/-- STR (R116). -/
def execStr (sr baseR : Reg) (off6 : BitVec 6) (s : State) : Host.Outcome State Fault Refusal :=
  .next (memWrite (baseOff6 baseR off6 s) (s.reg sr) s)

end Sys2Proof.Machine
end

