-- ==== Sys2Proof/Machine/Trap.lean ====
section
/-! DEFINITION. TRAP and its services (spec/43_trap.md R130 to R140). The decoder has already chosen the service by the vector, so
the vector check precedes every effect (R130). -/

namespace Sys2Proof.Machine

/-- `if trap_links_r7 then R[7] <- pc`, before the service (R131): if not, R7 is given the value it has. -/
def trapLink (s : State) : State :=
  s.setReg 7#3 (if s.config.trapLinksR7 then s.pc else s.reg 7#3)

/-- `R[0] <- zext_16(b); if trap_sets_cc then setcc(R[0])` (R132, R135). -/
def receiveByte (b : Byte) (s : State) : State := setccIfTrapSets (zext b) (s.setReg 0#3 (zext b))

/-- How many words a string scan reads at most before it is certain to run on for ever. A host that accepts only so many more bytes ends the scan
once they are written; otherwise the host's listed answers are used up after that many visits to KBSR, and one more round of the 65536 addresses then
meets nothing new. `scanString_fuel` (Laws/Scan.lean) proves that a longer count changes nothing. -/
def scanFuel (s : State) : Nat := 65536 * (s.console.pending.length + 2) + s.console.writesLeft.getD 0

/-- The loop of PUTS and PUTSP (R134, R136), the count being the words it may still read: each word is read through the decoder and given to `emit`,
which writes its characters and says whether the loop goes on; addresses wrap. -/
def scanString (emit : Word → State → Result Bool) : Nat → Word → State → Result Unit
  | 0, _, _ => .stuck .scanNeverEnds
  | k + 1, a, s =>
    (memRead a s).bind fun w s1 =>
      (emit w s1).bind fun more s2 => if more then scanString emit k (a + 1#16) s2 else .done () s2

/-- What PUTS does with a word (R134): a zero word stops; otherwise the low byte is written. -/
def emitPuts (w : Word) (s : State) : Result Bool :=
  if w = 0x0000#16 then .done false s
  else (conWrite (lowByte w) s).bind fun _ s1 => .done true s1

/-- What PUTSP does with a word (R136): a zero word stops; otherwise the low byte is written, then a zero high byte stops, then the high byte is written. -/
def emitPutsp (w : Word) (s : State) : Result Bool :=
  if w = 0x0000#16 then .done false s
  else (conWrite (lowByte w) s).bind fun _ s1 =>
    if highByte w = 0x00#8 then .done false s1
    else (conWrite (highByte w) s1).bind fun _ s2 => .done true s2

/-- GETC (R132). -/
def execTrapGetc (ign : BitVec 4) (s : State) : Host.Outcome State Fault Refusal :=
  finish (.trapGetc ign) s ((conRead (trapLink s)).bind fun b s1 => .done () (receiveByte b s1))

/-- OUT (R133). -/
def execTrapOut (ign : BitVec 4) (s : State) : Host.Outcome State Fault Refusal :=
  finish (.trapOut ign) s (conWrite (lowByte ((trapLink s).reg 0#3)) (trapLink s))

/-- PUTS (R134). -/
def execTrapPuts (ign : BitVec 4) (s : State) : Host.Outcome State Fault Refusal :=
  finish (.trapPuts ign) s (scanString emitPuts (scanFuel s) ((trapLink s).reg 0#3) (trapLink s))

/-- IN (R135): prompt, read, echo, result. -/
def execTrapIn (ign : BitVec 4) (s : State) : Host.Outcome State Fault Refusal :=
  finish (.trapIn ign) s
    ((conWriteAll s.config.inPrompt (trapLink s)).bind fun _ s1 =>
      (conRead s1).bind fun b s2 =>
        (conWriteAll (if s.config.inEcho then [b] else []) s2).bind fun _ s3 => .done () (receiveByte b s3))

/-- PUTSP (R136). -/
def execTrapPutsp (ign : BitVec 4) (s : State) : Host.Outcome State Fault Refusal :=
  finish (.trapPutsp ign) s (scanString emitPutsp (scanFuel s) ((trapLink s).reg 0#3) (trapLink s))

/-- HALT (R137): the banner, then the terminal sentinel in the pc. -/
def execTrapHalt (ign : BitVec 4) (s : State) : Host.Outcome State Fault Refusal :=
  finish (.trapHalt ign) s
    ((conWriteAll s.config.haltBanner (trapLink s)).bind fun _ s1 => .done () (s1.setPc s1.config.haltPc))

/-- TRAP with a vector that has no service (R138): nothing is written, R7 included. -/
def execTrapUnknown (ign : BitVec 4) (vec8 : BitVec 8) (s : State) : Host.Outcome State Fault Refusal :=
  .next (raise .unknownTrapVector (.trapUnknown ign vec8) s s)

end Sys2Proof.Machine
end

