-- ==== Sys2Proof/Machine/Unexecutable.lean ====
section
/-! DEFINITION. The two opcodes whose effect is to fault (spec/44_unexecutable.md R150 to R152). -/

namespace Sys2Proof.Machine

/-- Opcode 1000 (R151). -/
def execOp8 (ign : BitVec 12) (s : State) : Host.Outcome State Fault Refusal :=
  .next (raise .reservedOpcode (.op8 ign) s s)

/-- Opcode 1101 (R150). -/
def execReserved (ign : BitVec 12) (s : State) : Host.Outcome State Fault Refusal :=
  .next (raise .reservedOpcode (.reserved ign) s s)

end Sys2Proof.Machine
end

