-- ==== Sys2Proof/Machine/Step.lean ====
section
/-! DEFINITION. One step of the core (spec/30_encoding.md R70). -/

namespace Sys2Proof.Machine

/-- Fetch, decode, execute; taken only by a running machine whose pc is not HALT_PC (R20, R70, R184). -/
def step (s : State) : Host.Outcome State Fault Refusal :=
  match noStep s with
  | some f => .fault f
  | none =>
    match fetch s with
    | .done w s1 => exec (decode w) s1
    | .failed s1 => .next (fetchFault s s1)
    | .stuck f => .fault f

/-- The state in which the next step fetches the instruction whose bits are `w`. -/
def State.withFetchWord (s : State) (nbits w : Nat) : State := placeWord (BitVec.ofNat 16 (w % 2 ^ nbits)) s

end Sys2Proof.Machine
end

