-- ==== Sys2Proof/Machine/Loader.lean ====
section
/-! DEFINITION. Loading a program image before the first step (spec/10_state.md R44, spec/70_reset_and_hazards.md R180 to R183, R186). -/

namespace Sys2Proof.Machine

/-- Words stored one after another from an address, wrapping at 0xFFFF; a later word wins (R182). -/
def storeWords : Word → List Word → State → State
  | _, [], s => s
  | a, w :: rest, s => storeWords (a + 1#16) rest (memWrite a w s)

/-- The load interface (R44): `none` is an image that cannot be opened (R180). An odd byte count, and an image with no origin
word, are malformed (R181, R183); a failed load leaves no state, so nothing was written. Otherwise the words after the first are stored from
the origin on and the pc is the origin (R182, R183). -/
def loadImage (image : Option (List Byte)) (s : State) : Except ErrorKind State :=
  match image with
  | none => .error .imageNotFound
  | some bytes =>
    if bytes.length % 2 = 1 then .error .imageMalformed
    else
      match wordsOfBytes bytes with
      | [] => .error .imageMalformed
      | origin :: program => .ok ((storeWords origin program s).setPc origin)

/-- The reset sequence up to the run loop (R186): a fresh machine with its parameters and its host, the image, the pc at the origin. -/
def boot (params : Config.Params) (host : Console) (image : Option (List Byte)) : Except ErrorKind State :=
  loadImage image (State.resetWith params host)

/-- The number of an error kind on the status output (R160, D24). -/
def errorCode : ErrorKind → Nat
  | .imageNotFound => 0
  | .imageMalformed => 1
  | .reservedOpcode => 2
  | .unknownTrapVector => 3
  | .consoleIOFailure => 4

end Sys2Proof.Machine
end

