-- ==== Sys2Proof/Machine/Run.lean ====
section
/-! DEFINITION. The run loop and what a run ends in (spec/70_reset_and_hazards.md R184, R185, R191; spec/10_state.md R44). -/

namespace Sys2Proof.Machine

/-- Where a run stands. -/
inductive RunEnd where
  /-- It ended halted, in this final state (R185). -/
  | halted (s : State)
  /-- It ended faulted, with this record and final state (R185, R164). -/
  | faulted (record : FaultRecord) (s : State)
  /-- The step from this state never completes (R191). -/
  | hangs (f : Fault) (s : State)
  /-- The counted steps are over and the run is not. -/
  | unfinished (s : State)
deriving DecidableEq, Repr

/-- At most so many rounds of the run loop (R184): the halt test stands before every step, the first included. -/
def runFor : Nat → State → RunEnd
  | 0, s => .unfinished s
  | k + 1, s =>
    match s.status with
    | .faulted record => .faulted record s
    | .running =>
      if s.pc = s.config.haltPc then .halted s
      else
        match step s with
        | .next t => runFor k t
        | .fault f => .hangs f s
        | .refused _ => .unfinished s

/-- What the status output presents (R44). -/
inductive StatusOutput where
  | halted
  | coreFault (record : FaultRecord)
  | loadFault (kind : ErrorKind)
  /-- The run has not ended, so nothing is presented. -/
  | none
deriving DecidableEq, Repr

/-- The status output of a run of at most so many rounds, from its image, with the machine's parameters and the host behind its console (R44, R184). -/
def statusOutput (rounds : Nat) (params : Config.Params) (host : Console) (image : Option (List Byte)) : StatusOutput :=
  match boot params host image with
  | .error kind => .loadFault kind
  | .ok s =>
    match runFor rounds s with
    | .halted _ => .halted
    | .faulted record _ => .coreFault record
    | .hangs _ _ => .none
    | .unfinished _ => .none

end Sys2Proof.Machine
end

