-- ==== Sys2Proof/Safety.lean ====
section
/-! DEFINITION. The terms claims about the machine are made in: what stays unchanged, what a fault leaves, the invariant, and the string loops as the spec writes them. -/

namespace Sys2Proof.Machine

/-! ## Parameters -/

/-- The addresses and values of the machine of the spec, as R9 gives them: the sentinel, the keyboard cells and what a poll leaves in KBSR. -/
structure SpecValues (p : Config.Params) : Prop where
  haltPc : p.haltPc = 0xFFFF#16
  kbsrAddr : p.kbsrAddr = 0xFE00#16
  kbdrAddr : p.kbdrAddr = 0xFE02#16
  kbsrReady : p.kbsrReady = 0x8000#16
  kbsrNotReady : p.kbsrNotReady = 0x0000#16

/-! ## Frames -/

/-- Every general register outside the list reads as before. -/
def SameRegsBut (rs : List Reg) (s t : State) : Prop := ∀ r, r ∉ rs → t.reg r = s.reg r

/-- Every memory cell outside the list reads as before. -/
def SameMemBut (as : List Word) (s t : State) : Prop := ∀ a, a ∉ as → t.word a = s.word a

/-- From `s` to `t` nothing but the listed registers and cells, the pc and COND may differ, `d` being what the polls and console
primitives in between have come to: memory and console are compared with `d`, the rest with `s`. Where an instruction reads no
memory and calls no console primitive, `d` is `s`. -/
def SameBut (rs : List Reg) (as : List Word) (s d t : State) : Prop :=
  SameRegsBut rs s t ∧ SameMemBut as d t ∧ t.console = d.console ∧ t.status = s.status ∧ t.config = s.config

/-- COND after `setcc(v)`: bits 15:3 as before, and bits 2:0 = N, Z, P the one flag of `v` (R27). -/
def CondSetFrom (v : Word) (s t : State) : Prop :=
  t.cond.extractLsb' 3 13 = s.cond.extractLsb' 3 13 ∧
  (v = 0x0000#16 → t.cond.extractLsb' 0 3 = 0b010#3) ∧
  (v ≠ 0x0000#16 → v.getLsbD 15 = true → t.cond.extractLsb' 0 3 = 0b100#3) ∧
  (v ≠ 0x0000#16 → v.getLsbD 15 = false → t.cond.extractLsb' 0 3 = 0b001#3)

/-- What the console primitives and the polls may change: the two keyboard cells, the answers still to come, and the output
stream, which only grows (R42, R51). -/
structure HostEffects (s t : State) : Prop where
  regs : t.regs = s.regs
  pc : t.pc = s.pc
  cond : t.cond = s.cond
  status : t.status = s.status
  config : t.config = s.config
  word : ∀ a, a ≠ s.config.kbsrAddr → a ≠ s.config.kbdrAddr → t.word a = s.word a
  wf : s.mem.wf = true → t.mem.wf = true
  output : s.console.output <+: t.console.output

/-! ## Faults -/

/-- Memory and console of `t` are as `d` has them. -/
def SameHost (d t : State) : Prop := (∀ a, t.word a = d.word a) ∧ t.console = d.console

/-- What a fault of `kind`, raised in the instruction whose word is `w` and begun in `s` with the pc at its address plus 1, leaves outside memory and the
console (R164): the record, the pc at the instruction's address, registers and COND as before the instruction. -/
def FaultLeaves (kind : ErrorKind) (w : Word) (s t : State) : Prop :=
  t.status = .faulted ⟨kind, s.pc - 1#16, w⟩ ∧ t.pc = s.pc - 1#16 ∧ (∀ r, t.reg r = s.reg r) ∧ t.cond = s.cond ∧ t.config = s.config

/-- The whole state a fault leaves (R164), `d` being what the instruction had come to: its polls and its console bytes stand. -/
def FaultedFrom (kind : ErrorKind) (w : Word) (s d t : State) : Prop := FaultLeaves kind w s t ∧ SameHost d t

/-- The outcome of an instruction, of word `w` and begun in `s`, that comes out as one of its operations does: with the value and state of
the operation if that completes, in the faulted state of ConsoleIOFailure if the host answers failure, and with no next state if it never
completes. -/
def Follows {α : Type} (r : Result α) (w : Word) (s : State) (o : Host.Outcome State Fault Refusal)
    (effect : α → State → State → Prop) : Prop :=
  match r with
  | .done v d => ∃ t, o = .next t ∧ effect v d t
  | .failed d => ∃ t, o = .next t ∧ FaultedFrom .consoleIOFailure w s d t
  | .stuck f => o = .fault f

/-- `t` is faulted, with a record of this kind. -/
def FaultedWith (kind : ErrorKind) (t : State) : Prop := ∃ record, t.status = .faulted record ∧ record.kind = kind

/-! ## TRAP services -/

/-- `for c in bytes: ConWrite(c)`, as the spec writes it (R135, R137): byte by byte. -/
def writeBytes : List Byte → State → Result Unit
  | [], s => .done () s
  | b :: bytes, s => (conWrite b s).bind fun _ s1 => writeBytes bytes s1

/-- What every TRAP service leaves outside memory and the console, `rs` being the registers it writes: R7 as R131 says for either value of
`trap_links_r7` (D7), the other registers, the run status and the parameters as before (R140). -/
def ServiceLeaves (rs : List Reg) (s t : State) : Prop :=
  t.reg 7#3 = (if s.config.trapLinksR7 then s.pc else s.reg 7#3) ∧ SameRegsBut (7#3 :: rs) s t ∧
  t.status = s.status ∧ t.config = s.config

/-- What GETC and IN leave outside memory and the console: the byte in R0, zero-extended, COND as D8 says for either value of `trap_sets_cc`, and
the pc after the TRAP. -/
def ReceivedByte (b : Byte) (s t : State) : Prop :=
  (t.reg 0#3).toNat = b.toNat ∧ (s.config.trapSetsCc = true → CondSetFrom (t.reg 0#3) s t) ∧
  (s.config.trapSetsCc = false → t.cond = s.cond) ∧ t.pc = s.pc ∧ ServiceLeaves [0#3] s t

/-- What OUT, PUTS and PUTSP leave outside memory and the console. -/
def NothingReceived (s t : State) : Prop := t.cond = s.cond ∧ t.pc = s.pc ∧ ServiceLeaves [] s t

/-! ## The invariant -/

/-- COND[2:0] is exactly one of N, Z, P (R29). -/
def CondOneFlag (s : State) : Prop :=
  condCodes s = 0b100#3 ∨ condCodes s = 0b010#3 ∨ condCodes s = 0b001#3

/-- A fault record is one of the core's kinds and its address is the pc (R160, R164). -/
def RecordMatchesPc (s : State) : Prop :=
  ∀ record, s.status = .faulted record →
    record.faultPc = s.pc ∧
    (record.kind = .reservedOpcode ∨ record.kind = .unknownTrapVector ∨ record.kind = .consoleIOFailure)

/-- What holds at reset and is kept by every step. -/
structure Inv (s : State) : Prop where
  memory : s.mem.wf = true
  cond : CondOneFlag s
  record : RecordMatchesPc s

/-! ## Which instruction may write what -/

/-- The registers an instruction's rule names as written: its DR, R7 as link register, R0 of GETC and IN (R23, R24, R140). -/
def writtenRegs : Instr → List Reg
  | .addReg dr _ _ _ => [dr]
  | .addImm dr _ _ => [dr]
  | .andReg dr _ _ _ => [dr]
  | .andImm dr _ _ => [dr]
  | .not dr _ _ => [dr]
  | .ld dr _ => [dr]
  | .ldi dr _ => [dr]
  | .ldr dr _ _ => [dr]
  | .lea dr _ => [dr]
  | .st _ _ => []
  | .sti _ _ => []
  | .str _ _ _ => []
  | .br _ _ => []
  | .jmp _ _ _ => []
  | .jsr _ => [7#3]
  | .jsrr _ _ _ => [7#3]
  | .trapGetc _ => [0#3, 7#3]
  | .trapOut _ => [7#3]
  | .trapPuts _ => [7#3]
  | .trapIn _ => [0#3, 7#3]
  | .trapPutsp _ => [7#3]
  | .trapHalt _ => [7#3]
  | .trapUnknown _ _ => []
  | .op8 _ => []
  | .reserved _ => []

/-- The instructions whose rule applies setcc (R28); GETC and IN do so when `trap_sets_cc`. -/
def writesCond (p : Config.Params) : Instr → Bool
  | .addReg _ _ _ _ => true
  | .addImm _ _ _ => true
  | .andReg _ _ _ _ => true
  | .andImm _ _ _ => true
  | .not _ _ _ => true
  | .ld _ _ => true
  | .ldi _ _ => true
  | .ldr _ _ _ => true
  | .lea _ _ => true
  | .st _ _ => false
  | .sti _ _ => false
  | .str _ _ _ => false
  | .br _ _ => false
  | .jmp _ _ _ => false
  | .jsr _ => false
  | .jsrr _ _ _ => false
  | .trapGetc _ => p.trapSetsCc
  | .trapOut _ => false
  | .trapPuts _ => false
  | .trapIn _ => p.trapSetsCc
  | .trapPutsp _ => false
  | .trapHalt _ => false
  | .trapUnknown _ _ => false
  | .op8 _ => false
  | .reserved _ => false

/-- The address an instruction stores to, begun in `s` (R114, R115, R116): for STI, the pointer as its read through the decoder answers. -/
def storeAddress (i : Instr) (s : State) : Option Word :=
  match i with
  | .st _ off9 => some (pcRel9 off9 s)
  | .str _ baseR off6 => some (baseOff6 baseR off6 s)
  | .sti _ off9 =>
    match memRead (pcRel9 off9 s) s with
    | .done ea _ => some ea
    | .failed _ => none
    | .stuck _ => none
  | .addReg _ _ _ _ => none
  | .addImm _ _ _ => none
  | .andReg _ _ _ _ => none
  | .andImm _ _ _ => none
  | .not _ _ _ => none
  | .ld _ _ => none
  | .ldi _ _ => none
  | .ldr _ _ _ => none
  | .lea _ _ => none
  | .br _ _ => none
  | .jmp _ _ _ => none
  | .jsr _ => none
  | .jsrr _ _ _ => none
  | .trapGetc _ => none
  | .trapOut _ => none
  | .trapPuts _ => none
  | .trapIn _ => none
  | .trapPutsp _ => none
  | .trapHalt _ => none
  | .trapUnknown _ _ => none
  | .op8 _ => none
  | .reserved _ => none

/-- The register an instruction stores from (R114, R115, R116). -/
def storeSource : Instr → Option Reg
  | .st sr _ => some sr
  | .str sr _ _ => some sr
  | .sti sr _ => some sr
  | .addReg _ _ _ _ => none
  | .addImm _ _ _ => none
  | .andReg _ _ _ _ => none
  | .andImm _ _ _ => none
  | .not _ _ _ => none
  | .ld _ _ => none
  | .ldi _ _ => none
  | .ldr _ _ _ => none
  | .lea _ _ => none
  | .br _ _ => none
  | .jmp _ _ _ => none
  | .jsr _ => none
  | .jsrr _ _ _ => none
  | .trapGetc _ => none
  | .trapOut _ => none
  | .trapPuts _ => none
  | .trapIn _ => none
  | .trapPutsp _ => none
  | .trapHalt _ => none
  | .trapUnknown _ _ => none
  | .op8 _ => none
  | .reserved _ => none

/-! ## The string loops, as the spec writes them -/

/-- `PutsLoop a s r`: the loop of PUTS (R134), at address `a` in state `s`, ends, and comes to `r`. A loop that never ends has no derivation. -/
inductive PutsLoop : Word → State → Result Unit → Prop where
  | readFails {a s d} : memRead a s = .failed d → PutsLoop a s (.failed d)
  | readWaits {a s f} : memRead a s = .stuck f → PutsLoop a s (.stuck f)
  | terminator {a s d} : memRead a s = .done 0x0000#16 d → PutsLoop a s (.done () d)
  | writeFails {a s d w e} : memRead a s = .done w d → w ≠ 0x0000#16 → conWrite (lowByte w) d = .failed e →
      PutsLoop a s (.failed e)
  | again {a s d w e r} : memRead a s = .done w d → w ≠ 0x0000#16 → conWrite (lowByte w) d = .done () e →
      PutsLoop (a + 1#16) e r → PutsLoop a s r

/-- `PutspLoop a s r`: the loop of PUTSP (R136), at address `a` in state `s`, ends, and comes to `r`. -/
inductive PutspLoop : Word → State → Result Unit → Prop where
  | readFails {a s d} : memRead a s = .failed d → PutspLoop a s (.failed d)
  | readWaits {a s f} : memRead a s = .stuck f → PutspLoop a s (.stuck f)
  | zeroWord {a s d} : memRead a s = .done 0x0000#16 d → PutspLoop a s (.done () d)
  | lowFails {a s d w e} : memRead a s = .done w d → w ≠ 0x0000#16 → conWrite (lowByte w) d = .failed e →
      PutspLoop a s (.failed e)
  | zeroHigh {a s d w e} : memRead a s = .done w d → w ≠ 0x0000#16 → conWrite (lowByte w) d = .done () e →
      highByte w = 0x00#8 → PutspLoop a s (.done () e)
  | highFails {a s d w e g} : memRead a s = .done w d → w ≠ 0x0000#16 → conWrite (lowByte w) d = .done () e →
      highByte w ≠ 0x00#8 → conWrite (highByte w) e = .failed g → PutspLoop a s (.failed g)
  | again {a s d w e g r} : memRead a s = .done w d → w ≠ 0x0000#16 → conWrite (lowByte w) d = .done () e →
      highByte w ≠ 0x00#8 → conWrite (highByte w) e = .done () g → PutspLoop (a + 1#16) g r → PutspLoop a s r

/-! ## Noninterference -/

/-- The state with COND[15:3] replaced. -/
def withReserved (bits : BitVec 13) (s : State) : State := { s with cond := bits ++ s.cond.extractLsb' 0 3 }

/-- The outcome with its next state replaced. -/
def mapNext (f : State → State) : Host.Outcome State Fault Refusal → Host.Outcome State Fault Refusal
  | .next s => .next (f s)
  | .fault w => .fault w
  | .refused w => .refused w

/-! ## Safe runs -/

/-- Some run of this length from `s` is still going or has ended halted: it has not faulted and no step of it has hung. -/
def SafeFor (rounds : Nat) (s : State) : Prop :=
  match runFor rounds s with
  | .halted _ => True
  | .unfinished _ => True
  | .faulted _ _ => False
  | .hangs _ _ => False

end Sys2Proof.Machine
end

