-- ==== Sys2Proof/Certificates/Slice0/Obligations.lean ====
section
/-! DEFINITION. The statements for the provers, in the terms of Sys2Proof/Safety.lean. In a statement about `exec` the state it is given
stands after the fetch: its pc is the instruction's address plus 1 (R25, R70). The parameters of R9 stand in a state's `config`; a statement holds for
every value of them unless it says `SpecValues`, the addresses and values R9 gives the machine of the spec. -/

open Sys2Proof Sys2Proof.Machine

/-! ## Encoding -/

/-- R73 to R75 (their bit positions and opcode numbers are the spec's decisions D1, D2 and D6, from general knowledge), on words of
spec/95_test_vectors.md. -/
def Obligations.DecoderReadsTheSpecsWords : Prop :=
  decode 0x1202#16 = .addReg 1#3 0#3 0#2 2#3 ∧ decode 0x127F#16 = .addImm 1#3 1#3 0x1F#5 ∧
  decode 0x94BF#16 = .not 2#3 2#3 0x3F#6 ∧ decode 0xA608#16 = .ldi 3#3 8#9 ∧ decode 0x7260#16 = .str 1#3 1#3 0x20#6 ∧
  decode 0x03FD#16 = .br 1#3 0x1FD#9 ∧ decode 0x4803#16 = .jsr 3#11 ∧ decode 0x47C0#16 = .jsrr 3#2 7#3 0#6 ∧
  decode 0xFF25#16 = .trapHalt 0xF#4 ∧ decode 0xF026#16 = .trapUnknown 0#4 0x26#8 ∧ decode 0x8001#16 = .op8 1#12 ∧
  decode 0xDFFF#16 = .reserved 0xFFF#12

/-- Decoding an encoded well-formed instruction gives it back, at every value of every operand and of every ignored bit (R75, R83, R85). -/
def Obligations.DecodeOfEncodeIsTheInstruction : Prop :=
  ∀ i : Instr, i.wf = true → decode (encode i) = i

/-- Every one of the 65536 words is the word of a well-formed instruction, the one it decodes to: no bit of a word is lost (R83, R85). -/
def Obligations.EncodeOfDecodeIsTheWord : Prop :=
  ∀ w : Word, encode (decode w) = w ∧ (decode w).wf = true

/-- R74 and R75 as arithmetic: each field of an instruction stands in its word at its own power of two (positions: the spec's decision D1). -/
def Obligations.FieldsStandAtTheirPlaces : Prop :=
  ∀ i : Instr, (encode i).toNat =
    match i with
    | .addReg dr sr1 ign sr2 => 0x1000 + 512 * dr.toNat + 64 * sr1.toNat + 8 * ign.toNat + sr2.toNat
    | .addImm dr sr1 imm5 => 0x1020 + 512 * dr.toNat + 64 * sr1.toNat + imm5.toNat
    | .andReg dr sr1 ign sr2 => 0x5000 + 512 * dr.toNat + 64 * sr1.toNat + 8 * ign.toNat + sr2.toNat
    | .andImm dr sr1 imm5 => 0x5020 + 512 * dr.toNat + 64 * sr1.toNat + imm5.toNat
    | .not dr sr ign => 0x9000 + 512 * dr.toNat + 64 * sr.toNat + ign.toNat
    | .ld dr off9 => 0x2000 + 512 * dr.toNat + off9.toNat
    | .ldi dr off9 => 0xA000 + 512 * dr.toNat + off9.toNat
    | .ldr dr baseR off6 => 0x6000 + 512 * dr.toNat + 64 * baseR.toNat + off6.toNat
    | .lea dr off9 => 0xE000 + 512 * dr.toNat + off9.toNat
    | .st sr off9 => 0x3000 + 512 * sr.toNat + off9.toNat
    | .sti sr off9 => 0xB000 + 512 * sr.toNat + off9.toNat
    | .str sr baseR off6 => 0x7000 + 512 * sr.toNat + 64 * baseR.toNat + off6.toNat
    | .br nzp off9 => 512 * nzp.toNat + off9.toNat
    | .jmp ignHi baseR ignLo => 0xC000 + 512 * ignHi.toNat + 64 * baseR.toNat + ignLo.toNat
    | .jsr off11 => 0x4800 + off11.toNat
    | .jsrr ignHi baseR ignLo => 0x4000 + 512 * ignHi.toNat + 64 * baseR.toNat + ignLo.toNat
    | .trapGetc ign => 0xF020 + 256 * ign.toNat
    | .trapOut ign => 0xF021 + 256 * ign.toNat
    | .trapPuts ign => 0xF022 + 256 * ign.toNat
    | .trapIn ign => 0xF023 + 256 * ign.toNat
    | .trapPutsp ign => 0xF024 + 256 * ign.toNat
    | .trapHalt ign => 0xF025 + 256 * ign.toNat
    | .trapUnknown ign vec8 => 0xF000 + 256 * ign.toNat + vec8.toNat
    | .op8 ign => 0x8000 + ign.toNat
    | .reserved ign => 0xD000 + ign.toNat

/-- R85: the first row of the opcode table whose fixed bits a word has is the row of the instruction it decodes to, and apart from the
generic TRAP row no other row has them. -/
def Obligations.EveryWordSelectsItsRow : Prop :=
  ∀ w : Word,
    (opcodeTable.find? (fun r => rowSelects r w)).map (fun r => (r.mnemonic, r.format)) = some (rowName (decode w)) ∧
    ∀ r ∈ opcodeTable, rowSelects r w = true →
      (r.mnemonic, r.format) = rowName (decode w) ∨ r.mnemonic = "TRAP__unknown_vector"

/-! ## Primitives -/

/-- R12: `sext_n(v) = v` if `v[n-1] = 0`, else `v + (65536 - 2^n)`, for the four widths the instructions use; and `zext_16` of a byte keeps its
value. -/
def Obligations.SignExtensionIsTheFormula : Prop :=
  (∀ v : BitVec 5, (sext v).toNat = if v.getLsbD 4 then v.toNat + (65536 - 2 ^ 5) else v.toNat) ∧
  (∀ v : BitVec 6, (sext v).toNat = if v.getLsbD 5 then v.toNat + (65536 - 2 ^ 6) else v.toNat) ∧
  (∀ v : BitVec 9, (sext v).toNat = if v.getLsbD 8 then v.toNat + (65536 - 2 ^ 9) else v.toNat) ∧
  (∀ v : BitVec 11, (sext v).toNat = if v.getLsbD 10 then v.toNat + (65536 - 2 ^ 11) else v.toNat) ∧
  ∀ b : Byte, (zext b).toNat = b.toNat

/-- R27: setcc sets COND[2:0] to the one flag of the value and leaves bits 15:3, and everything else, unchanged; and no instruction
writes bits 15:3. -/
def Obligations.SetccSetsOneFlag : Prop :=
  (∀ (v : Word) (s : State),
    CondSetFrom v s (setcc v s) ∧ SameBut [] [] s s (setcc v s) ∧ (setcc v s).pc = s.pc) ∧
  ∀ (i : Instr) (s t : State), exec i s = .next t → t.cond.extractLsb' 3 13 = s.cond.extractLsb' 3 13

/-- R50: a read of KBSR, 0xFE00 in the machine of the spec, polls and then returns the cell; a read of any other address returns the cell with no side
effect. -/
def Obligations.ReadPollsOnlyTheStatusCell : Prop :=
  Config.params.kbsrAddr = 0xFE00#16 ∧
  ∀ (a : Word) (s : State),
    (a ≠ s.config.kbsrAddr → memRead a s = .done (s.word a) s) ∧
    (a = s.config.kbsrAddr →
      match kbsrPoll s with
      | .done _ d => memRead a s = .done (d.word a) d
      | .failed d => memRead a s = .failed d
      | .stuck f => memRead a s = .stuck f)

/-- R53: a store is plain at every address, the keyboard cells included. -/
def Obligations.WriteIsPlainEverywhere : Prop :=
  ∀ (a v : Word) (s : State),
    (memWrite a v s).word a = v ∧ SameBut [] [a] s s (memWrite a v s) ∧
    (memWrite a v s).pc = s.pc ∧ (memWrite a v s).cond = s.cond

/-- R51 (its widening is the spec's decision D16; the stored values are the parameters KBSR_READY and KBSR_NOT_READY, D15), by the host's answer to the poll. -/
def Obligations.NonBlockingPollStoresTheAnswer : Prop :=
  ∀ s : State, s.config.kbPolicy = .nonBlocking →
    match conPoll s with
    | .done (some b) c => ∃ d, kbsrPoll s = .done () d ∧ d.word s.config.kbsrAddr = s.config.kbsrReady ∧
        (s.config.kbdrAddr ≠ s.config.kbsrAddr → (d.word s.config.kbdrAddr).toNat = b.toNat) ∧
        SameBut [] [s.config.kbsrAddr, s.config.kbdrAddr] s c d ∧ d.pc = s.pc ∧ d.cond = s.cond
    | .done none c => ∃ d, kbsrPoll s = .done () d ∧ d.word s.config.kbsrAddr = s.config.kbsrNotReady ∧
        SameBut [] [s.config.kbsrAddr] s c d ∧ d.pc = s.pc ∧ d.cond = s.cond
    | .failed c => kbsrPoll s = .failed c ∧ ∀ a, c.word a = s.word a
    | .stuck _ => False

/-- R52 (a decision of the spec, D14): under the blocking policy a poll waits for a byte, and always leaves "ready". -/
def Obligations.BlockingPollWaitsForAByte : Prop :=
  ∀ s : State, s.config.kbPolicy = .blocking →
    match conRead s with
    | .done b c => ∃ d, kbsrPoll s = .done () d ∧ d.word s.config.kbsrAddr = s.config.kbsrReady ∧
        (s.config.kbdrAddr ≠ s.config.kbsrAddr → (d.word s.config.kbdrAddr).toNat = b.toNat) ∧
        SameBut [] [s.config.kbsrAddr, s.config.kbdrAddr] s c d ∧ d.pc = s.pc ∧ d.cond = s.cond
    | .failed c => kbsrPoll s = .failed c ∧ ∀ a, c.word a = s.word a
    | .stuck f => kbsrPoll s = .stuck f

/-- R40, R41 and R43 (decisions D14, D17, D18) over the model's record of the host's answers (notes/assumptions/3.md): a byte is
consumed and returned; a blocking read waits past moments with no byte; failure fails. After the listed answers: the end of the input fails a blocking
read and answers `None` to a poll; a host that never answers leaves a blocking read waiting and answers `None` to a poll; one that supplies a byte for ever
answers both with it. -/
def Obligations.InputIsAnsweredInOrder : Prop :=
  ∀ (s : State) (k : Nat) (b : Byte) (rest : List HostAnswer),
    (s.console.pending = List.replicate k .notReady ++ .byte b :: rest → conRead s = .done b (s.setPending rest)) ∧
    (s.console.pending = List.replicate k .notReady ++ .failure :: rest → conRead s = .failed (s.setPending rest)) ∧
    (s.console.pending = List.replicate k .notReady → s.console.inputEnd = .closed → conRead s = .failed (s.setPending [])) ∧
    (s.console.pending = List.replicate k .notReady → s.console.inputEnd = .silent → conRead s = .stuck .waitingForInput) ∧
    (s.console.pending = List.replicate k .notReady → s.console.inputEnd = .endless b → conRead s = .done b (s.setPending [])) ∧
    (s.console.pending = .byte b :: rest → conPoll s = .done (some b) (s.setPending rest)) ∧
    (s.console.pending = .notReady :: rest → conPoll s = .done none (s.setPending rest)) ∧
    (s.console.pending = .failure :: rest → conPoll s = .failed (s.setPending rest)) ∧
    (s.console.pending = [] → s.console.inputEnd = .closed → conPoll s = .done none s) ∧
    (s.console.pending = [] → s.console.inputEnd = .silent → conPoll s = .done none s) ∧
    (s.console.pending = [] → s.console.inputEnd = .endless b → conPoll s = .done (some b) s)

/-- R42: a write is accepted, and the byte appended, or it fails with nothing changed; and no step ever takes a byte back. -/
def Obligations.OutputOnlyGrows : Prop :=
  (∀ (b : Byte) (s : State),
    (∃ t, conWrite b s = .done () t ∧ t.console.output = s.console.output ++ [b]) ∨ conWrite b s = .failed s) ∧
  ∀ s t : State, step s = .next t → s.console.output <+: t.console.output

/-! ## Operate instructions -/

/-- R100: ADD, register form. It always completes. -/
def Obligations.AddRegisterAddsModulo : Prop :=
  ∀ (dr sr1 sr2 : Reg) (ign : BitVec 2) (s : State),
    ∃ t, exec (.addReg dr sr1 ign sr2) s = .next t ∧
      (t.reg dr).toNat = ((s.reg sr1).toNat + (s.reg sr2).toNat) % 65536 ∧
      CondSetFrom (t.reg dr) s t ∧ t.pc = s.pc ∧ SameBut [dr] [] s s t

/-- R101: ADD, immediate form. It always completes. -/
def Obligations.AddImmediateAddsTheExtendedField : Prop :=
  ∀ (dr sr1 : Reg) (imm5 : BitVec 5) (s : State),
    ∃ t, exec (.addImm dr sr1 imm5) s = .next t ∧
      (t.reg dr).toNat = ((s.reg sr1).toNat + (sext imm5).toNat) % 65536 ∧
      CondSetFrom (t.reg dr) s t ∧ t.pc = s.pc ∧ SameBut [dr] [] s s t

/-- R102: AND, register form, bit by bit. It always completes. -/
def Obligations.AndRegisterIsBitwise : Prop :=
  ∀ (dr sr1 sr2 : Reg) (ign : BitVec 2) (s : State),
    ∃ t, exec (.andReg dr sr1 ign sr2) s = .next t ∧
      (∀ k, (t.reg dr).getLsbD k = ((s.reg sr1).getLsbD k && (s.reg sr2).getLsbD k)) ∧
      CondSetFrom (t.reg dr) s t ∧ t.pc = s.pc ∧ SameBut [dr] [] s s t

/-- R103: AND, immediate form, bit by bit. It always completes. -/
def Obligations.AndImmediateIsBitwise : Prop :=
  ∀ (dr sr1 : Reg) (imm5 : BitVec 5) (s : State),
    ∃ t, exec (.andImm dr sr1 imm5) s = .next t ∧
      (∀ k, (t.reg dr).getLsbD k = ((s.reg sr1).getLsbD k && (sext imm5).getLsbD k)) ∧
      CondSetFrom (t.reg dr) s t ∧ t.pc = s.pc ∧ SameBut [dr] [] s s t

/-- R104: NOT, as the complement to 0xFFFF. It always completes. -/
def Obligations.NotComplementsEveryBit : Prop :=
  ∀ (dr sr : Reg) (ign : BitVec 6) (s : State),
    ∃ t, exec (.not dr sr ign) s = .next t ∧
      (t.reg dr).toNat = 65535 - (s.reg sr).toNat ∧
      CondSetFrom (t.reg dr) s t ∧ t.pc = s.pc ∧ SameBut [dr] [] s s t

/-! ## Data-move instructions -/

/-- R110: LD goes as its read through the decoder goes; from any address but KBSR it always completes with the stored word. -/
def Obligations.LdLoadsThePcRelativeWord : Prop :=
  ∀ (dr : Reg) (off9 : BitVec 9) (s : State),
    Follows (memRead (s.pc + sext off9) s) (encode (.ld dr off9)) s (exec (.ld dr off9) s)
      (fun v d t => t.reg dr = v ∧ CondSetFrom v s t ∧ t.pc = s.pc ∧ SameBut [dr] [] s d t) ∧
    (s.pc + sext off9 ≠ s.config.kbsrAddr →
      ∃ t, exec (.ld dr off9) s = .next t ∧ t.reg dr = s.word (s.pc + sext off9) ∧
        CondSetFrom (t.reg dr) s t ∧ t.pc = s.pc ∧ SameBut [dr] [] s s t)

/-- R111: LDI reads the pointer, then the operand, both through the decoder; where neither is KBSR it always completes. -/
def Obligations.LdiLoadsThroughThePointer : Prop :=
  ∀ (dr : Reg) (off9 : BitVec 9) (s : State),
    Follows ((memRead (s.pc + sext off9) s).bind fun ea s1 => memRead ea s1) (encode (.ldi dr off9)) s (exec (.ldi dr off9) s)
      (fun v d t => t.reg dr = v ∧ CondSetFrom v s t ∧ t.pc = s.pc ∧ SameBut [dr] [] s d t) ∧
    (s.pc + sext off9 ≠ s.config.kbsrAddr → s.word (s.pc + sext off9) ≠ s.config.kbsrAddr →
      ∃ t, exec (.ldi dr off9) s = .next t ∧ t.reg dr = s.word (s.word (s.pc + sext off9)) ∧
        CondSetFrom (t.reg dr) s t ∧ t.pc = s.pc ∧ SameBut [dr] [] s s t)

/-- R112: LDR goes as its read through the decoder goes; from any address but KBSR it always completes with the stored word. -/
def Obligations.LdrLoadsTheBasedWord : Prop :=
  ∀ (dr baseR : Reg) (off6 : BitVec 6) (s : State),
    Follows (memRead (s.reg baseR + sext off6) s) (encode (.ldr dr baseR off6)) s (exec (.ldr dr baseR off6) s)
      (fun v d t => t.reg dr = v ∧ CondSetFrom v s t ∧ t.pc = s.pc ∧ SameBut [dr] [] s d t) ∧
    (s.reg baseR + sext off6 ≠ s.config.kbsrAddr →
      ∃ t, exec (.ldr dr baseR off6) s = .next t ∧ t.reg dr = s.word (s.reg baseR + sext off6) ∧
        CondSetFrom (t.reg dr) s t ∧ t.pc = s.pc ∧ SameBut [dr] [] s s t)

/-- R113: LEA writes the address itself and sets the condition codes from it; it reads no memory and always completes. -/
def Obligations.LeaWritesTheAddress : Prop :=
  ∀ (dr : Reg) (off9 : BitVec 9) (s : State),
    ∃ t, exec (.lea dr off9) s = .next t ∧
      (t.reg dr).toNat = (s.pc.toNat + (sext off9).toNat) % 65536 ∧
      CondSetFrom (t.reg dr) s t ∧ t.pc = s.pc ∧ SameBut [dr] [] s s t

/-- R114: ST stores to the PC-relative address, the keyboard cells included, with COND and all else unchanged. It always completes. -/
def Obligations.StStoresAtThePcRelativeAddress : Prop :=
  ∀ (sr : Reg) (off9 : BitVec 9) (s : State),
    ∃ t, exec (.st sr off9) s = .next t ∧ t.word (s.pc + sext off9) = s.reg sr ∧
      t.cond = s.cond ∧ t.pc = s.pc ∧ SameBut [] [s.pc + sext off9] s s t

/-- R115: STI reads the pointer through the decoder, then stores; where the pointer's cell is not KBSR it always completes. -/
def Obligations.StiStoresThroughThePointer : Prop :=
  ∀ (sr : Reg) (off9 : BitVec 9) (s : State),
    Follows (memRead (s.pc + sext off9) s) (encode (.sti sr off9)) s (exec (.sti sr off9) s)
      (fun ea d t => t.word ea = s.reg sr ∧ t.cond = s.cond ∧ t.pc = s.pc ∧ SameBut [] [ea] s d t) ∧
    (s.pc + sext off9 ≠ s.config.kbsrAddr →
      ∃ t, exec (.sti sr off9) s = .next t ∧ t.word (s.word (s.pc + sext off9)) = s.reg sr ∧
        t.cond = s.cond ∧ t.pc = s.pc ∧ SameBut [] [s.word (s.pc + sext off9)] s s t)

/-- R116: STR stores to the based address, the keyboard cells included, with COND and all else unchanged. It always completes. -/
def Obligations.StrStoresAtTheBasedAddress : Prop :=
  ∀ (sr baseR : Reg) (off6 : BitVec 6) (s : State),
    ∃ t, exec (.str sr baseR off6) s = .next t ∧ t.word (s.reg baseR + sext off6) = s.reg sr ∧
      t.cond = s.cond ∧ t.pc = s.pc ∧ SameBut [] [s.reg baseR + sext off6] s s t

/-! ## Control transfer -/

/-- R120: the branch is taken exactly when the mask and COND[2:0] share a bit; nothing but the pc changes. It always completes. -/
def Obligations.BrBranchesOnASharedBit : Prop :=
  ∀ (nzp : BitVec 3) (off9 : BitVec 9) (s : State),
    ∃ t, exec (.br nzp off9) s = .next t ∧
      (t.pc.toNat = if ∃ k, k < 3 ∧ nzp.getLsbD k = true ∧ s.cond.getLsbD k = true
        then (s.pc.toNat + (sext off9).toNat) % 65536 else s.pc.toNat) ∧
      t.cond = s.cond ∧ SameBut [] [] s s t

/-- R121 (derived by the spec from R120): the decision table over the eight masks and the three legal COND values. -/
def Obligations.BrFollowsTheDecisionTable : Prop :=
  ∀ (n z p : Bool) (off9 : BitVec 9) (s : State),
    CondOneFlag s →
    ∃ t, exec (.br (BitVec.ofBool n ++ BitVec.ofBool z ++ BitVec.ofBool p) off9) s = .next t ∧
      t.pc = if (n ∧ condCodes s = 0b100#3) ∨ (z ∧ condCodes s = 0b010#3) ∨ (p ∧ condCodes s = 0b001#3)
        then s.pc + sext off9 else s.pc

/-- R122: JMP. It always completes. -/
def Obligations.JmpGoesToTheBase : Prop :=
  ∀ (ignHi : BitVec 3) (baseR : Reg) (ignLo : BitVec 6) (s : State),
    ∃ t, exec (.jmp ignHi baseR ignLo) s = .next t ∧ t.pc = s.reg baseR ∧ t.cond = s.cond ∧ SameBut [] [] s s t

/-- R123: JSR. It always completes. -/
def Obligations.JsrLinksAndGoesRelative : Prop :=
  ∀ (off11 : BitVec 11) (s : State),
    ∃ t, exec (.jsr off11) s = .next t ∧ t.reg 7#3 = s.pc ∧
      t.pc.toNat = (s.pc.toNat + (sext off11).toNat) % 65536 ∧ t.cond = s.cond ∧ SameBut [7#3] [] s s t

/-- R124: JSRR reads its base after R7 has been written, so JSRR R7 goes on at the return address. It always completes. -/
def Obligations.JsrrLinksBeforeItReadsTheBase : Prop :=
  ∀ (ignHi : BitVec 2) (baseR : Reg) (ignLo : BitVec 6) (s : State),
    ∃ t, exec (.jsrr ignHi baseR ignLo) s = .next t ∧ t.reg 7#3 = s.pc ∧
      (baseR ≠ 7#3 → t.pc = s.reg baseR) ∧ (baseR = 7#3 → t.pc = s.pc) ∧ t.cond = s.cond ∧ SameBut [7#3] [] s s t

/-! ## TRAP services -/

/-- R132 with R131 (decisions D7 and D8: both parameters free): GETC goes as its blocking read goes, and completes whenever a byte is the host's next answer. -/
def Obligations.GetcReceivesOneByte : Prop :=
  ∀ (ign : BitVec 4) (s : State),
    Follows (conRead s) (encode (.trapGetc ign)) s (exec (.trapGetc ign) s) (fun b d t => ReceivedByte b s t ∧ SameHost d t) ∧
    ∀ b rest, s.console.pending = .byte b :: rest →
      ∃ t, exec (.trapGetc ign) s = .next t ∧ ReceivedByte b s t ∧ SameHost (s.setPending rest) t

/-- R133 with R131 (D7 free): OUT goes as its write goes, and completes whenever the host still accepts a byte. -/
def Obligations.OutWritesTheLowByte : Prop :=
  ∀ (ign : BitVec 4) (s : State),
    Follows (conWrite ((s.reg 0#3).extractLsb' 0 8) s) (encode (.trapOut ign)) s (exec (.trapOut ign) s)
      (fun _ d t => NothingReceived s t ∧ SameHost d t) ∧
    (s.console.writesLeft ≠ some 0 →
      ∃ t, exec (.trapOut ign) s = .next t ∧ NothingReceived s t ∧ t.console.pending = s.console.pending ∧
        t.console.output = s.console.output ++ [(s.reg 0#3).extractLsb' 0 8] ∧ ∀ a, t.word a = s.word a)

/-- R134 with R131 (D7 free; low bytes and no register change: decision D11): a string of nonzero words at R0, away from KBSR and ended
by a zero word, is written low byte by low byte, and PUTS completes, whenever the host still accepts that many bytes. -/
def Obligations.PutsWritesTheString : Prop :=
  ∀ (ign : BitVec 4) (s : State) (n : Nat),
    n < 65536 →
    (∀ k, k < n → s.word (s.reg 0#3 + BitVec.ofNat 16 k) ≠ 0x0000#16) →
    s.word (s.reg 0#3 + BitVec.ofNat 16 n) = 0x0000#16 →
    (∀ k, k ≤ n → s.reg 0#3 + BitVec.ofNat 16 k ≠ s.config.kbsrAddr) →
    (∀ m, s.console.writesLeft = some m → n ≤ m) →
    ∃ t, exec (.trapPuts ign) s = .next t ∧ NothingReceived s t ∧ (∀ a, t.word a = s.word a) ∧
      t.console.pending = s.console.pending ∧
      t.console.output =
        s.console.output ++ (List.range n).map (fun k => (s.word (s.reg 0#3 + BitVec.ofNat 16 k)).extractLsb' 0 8)

/-- R134 and I14: whatever the memory, the host and the address, PUTS comes to what the spec's loop comes to, polls of KBSR and console
failures included; and where that loop never ends there is no next state. (That the step then answers the stop `scanNeverEnds` is the model's choice,
notes/assumptions/9.md.) -/
def Obligations.PutsRunsTheLoopToItsEnd : Prop :=
  ∀ (ign : BitVec 4) (s : State),
    (∀ r, PutsLoop (s.reg 0#3) s r →
      Follows r (encode (.trapPuts ign)) s (exec (.trapPuts ign) s) (fun _ d t => NothingReceived s t ∧ SameHost d t)) ∧
    ((¬ ∃ r, PutsLoop (s.reg 0#3) s r) → exec (.trapPuts ign) s = .fault .scanNeverEnds)

/-- R135 with R131 (D7, D8 and D9: all four parameters free): IN goes as its prompt, its blocking read and its echo go, one after the other; it completes
whenever the host accepts every byte and a byte is its next answer. -/
def Obligations.InPromptsReadsAndEchoes : Prop :=
  ∀ (ign : BitVec 4) (s : State),
    Follows
      ((writeBytes s.config.inPrompt s).bind fun _ s1 =>
        (conRead s1).bind fun b s2 =>
          if s.config.inEcho then (conWrite b s2).bind fun _ s3 => .done b s3 else .done b s2)
      (encode (.trapIn ign)) s (exec (.trapIn ign) s) (fun b d t => ReceivedByte b s t ∧ SameHost d t) ∧
    ∀ b rest, s.console.writesLeft = none → s.console.pending = .byte b :: rest →
      ∃ t, exec (.trapIn ign) s = .next t ∧ ReceivedByte b s t ∧ (∀ a, t.word a = s.word a) ∧
        t.console.pending = rest ∧
        t.console.output = s.console.output ++ s.config.inPrompt ++ (if s.config.inEcho then [b] else [])

/-- R136 with R131 (D7 free; the reading of "until a zero byte terminates" is decision D12): words of two nonzero bytes at R0, away from KBSR, are
written low byte first, up to a word that is zero or whose high byte is zero; the low byte of the latter is written. -/
def Obligations.PutspWritesThePackedString : Prop :=
  ∀ (ign : BitVec 4) (s : State) (n : Nat),
    n < 65536 →
    (∀ k, k < n → (s.word (s.reg 0#3 + BitVec.ofNat 16 k)).extractLsb' 8 8 ≠ 0#8) →
    (s.word (s.reg 0#3 + BitVec.ofNat 16 n)).extractLsb' 8 8 = 0#8 →
    (∀ k, k ≤ n → s.reg 0#3 + BitVec.ofNat 16 k ≠ s.config.kbsrAddr) →
    s.console.writesLeft = none →
    ∃ t, exec (.trapPutsp ign) s = .next t ∧ NothingReceived s t ∧ (∀ a, t.word a = s.word a) ∧
      t.console.pending = s.console.pending ∧
      t.console.output =
        s.console.output ++
        (List.range n).flatMap (fun k =>
          [(s.word (s.reg 0#3 + BitVec.ofNat 16 k)).extractLsb' 0 8, (s.word (s.reg 0#3 + BitVec.ofNat 16 k)).extractLsb' 8 8]) ++
        (if s.word (s.reg 0#3 + BitVec.ofNat 16 n) = 0x0000#16 then []
          else [(s.word (s.reg 0#3 + BitVec.ofNat 16 n)).extractLsb' 0 8])

/-- R136 and I14: whatever the memory, the host and the address, PUTSP comes to what the spec's loop comes to, polls of KBSR and console failures included;
and where that loop never ends there is no next state (the stop `scanNeverEnds` is the model's choice, notes/assumptions/9.md). At the spec's addresses and
values the loop always comes to a result: it completes, fails or waits for a byte, since past KBSR it meets a zero high byte in KBDR at the latest (R51,
decision D16). That is the model's inference, against the wording of R191 and I14: notes/assumptions/9.md. -/
def Obligations.PutspRunsTheLoopToItsEnd : Prop :=
  ∀ (ign : BitVec 4) (s : State),
    (∀ r, PutspLoop (s.reg 0#3) s r →
      Follows r (encode (.trapPutsp ign)) s (exec (.trapPutsp ign) s) (fun _ d t => NothingReceived s t ∧ SameHost d t)) ∧
    ((¬ ∃ r, PutspLoop (s.reg 0#3) s r) → exec (.trapPutsp ign) s = .fault .scanNeverEnds) ∧
    (SpecValues s.config → ∃ r, PutspLoop (s.reg 0#3) s r)

/-- R137 with R131 (D7 and D10 free): HALT goes as the writes of its banner go, and forces pc = HALT_PC, after which there is no step, whatever the registers
hold. It completes whenever the host accepts the banner whole. -/
def Obligations.HaltForcesTheSentinel : Prop :=
  ∀ (ign : BitVec 4) (s : State),
    Follows (writeBytes s.config.haltBanner s) (encode (.trapHalt ign)) s (exec (.trapHalt ign) s)
      (fun _ d t => t.pc = s.config.haltPc ∧ t.cond = s.cond ∧ ServiceLeaves [] s t ∧ SameHost d t) ∧
    ((∀ m, s.console.writesLeft = some m → s.config.haltBanner.length ≤ m) →
      ∃ t, exec (.trapHalt ign) s = .next t ∧ t.pc = s.config.haltPc ∧ t.cond = s.cond ∧ ServiceLeaves [] s t ∧
        (∀ a, t.word a = s.word a) ∧ t.console.pending = s.console.pending ∧
        t.console.output = s.console.output ++ s.config.haltBanner ∧
        (s.status = .running → step t = .fault .halted))

/-- R138: a TRAP whose vector has no service writes nothing, R7 included, and leaves the faulted state with its own address and word. -/
def Obligations.UnknownVectorFaultsWithNothingWritten : Prop :=
  ∀ (ign : BitVec 4) (vec8 : BitVec 8) (s : State),
    vec8.toNat < 0x20 ∨ 0x25 < vec8.toNat →
    decode (0b1111#4 ++ ign ++ vec8) = .trapUnknown ign vec8 ∧
    ∃ t, exec (.trapUnknown ign vec8) s = .next t ∧
      FaultedFrom .unknownTrapVector (0b1111#4 ++ ign ++ vec8) s s t

/-! ## The opcodes that do not execute -/

/-- R150: the reserved opcode writes nothing and leaves the faulted state with its own address and word. (That its number is 1101 is decision D3.) -/
def Obligations.ReservedOpcodeFaultsWithNothingWritten : Prop :=
  ∀ (ign : BitVec 12) (s : State),
    decode (0b1101#4 ++ ign) = .reserved ign ∧
    ∃ t, exec (.reserved ign) s = .next t ∧ FaultedFrom .reservedOpcode (0b1101#4 ++ ign) s s t

/-- R151 (the spec's decision D4): opcode 1000 faults in the same way, its word telling it apart. -/
def Obligations.OpcodeEightFaultsWithNothingWritten : Prop :=
  ∀ (ign : BitVec 12) (s : State),
    decode (0b1000#4 ++ ign) = .op8 ign ∧
    ∃ t, exec (.op8 ign) s = .next t ∧ FaultedFrom .reservedOpcode (0b1000#4 ++ ign) s s t

/-! ## The whole machine -/

/-- R70 with R164 (decision D23): a running machine whose pc is not HALT_PC fetches through the decoder, increments the pc and executes the decoded word; a
fetch whose poll fails ends the step before the pc is incremented, and its record holds the pc and KBSR as it was before the poll; no other machine takes a
step. -/
def Obligations.StepRunsTheDecodedInstruction : Prop :=
  ∀ s : State,
    (s.status = .running → s.pc ≠ s.config.haltPc →
      match memRead s.pc s with
      | .done w d => step s = exec (decode w) (d.setPc (s.pc + 1#16))
      | .failed d => ∃ t, step s = .next t ∧ t.status = .faulted ⟨.consoleIOFailure, s.pc, s.word s.config.kbsrAddr⟩ ∧ t.pc = s.pc ∧
          t.cond = s.cond ∧ SameRegsBut [] s t ∧ (∀ a, t.word a = s.word a) ∧ t.console = d.console ∧ t.config = s.config
      | .stuck f => step s = .fault f) ∧
    (s.status = .running → s.pc = s.config.haltPc → step s = .fault .halted) ∧
    (∀ record, s.status = .faulted record → step s = .fault (.stopped record))

/-- R63 (derived by the spec from R50 and R57): a fetch from 0xFE00 under the non-blocking policy runs the poll's result: "ready" is opcode 1000 and
faults there, "not ready" is a no-op. -/
def Obligations.FetchFromTheStatusCellRunsThePoll : Prop :=
  ∀ (s c : State) (answer : Option Byte),
    SpecValues s.config → s.status = .running → s.pc = 0xFE00#16 → s.config.kbPolicy = .nonBlocking → conPoll s = .done answer c →
    match answer with
    | some b => ∃ t, step s = .next t ∧ t.status = .faulted ⟨.reservedOpcode, 0xFE00#16, 0x8000#16⟩ ∧ t.pc = 0xFE00#16 ∧
        (t.word 0xFE02#16).toNat = b.toNat ∧ t.word 0xFE00#16 = 0x8000#16 ∧ t.console = c.console
    | none => ∃ t, step s = .next t ∧ t.status = .running ∧ t.pc = 0xFE01#16 ∧ t.word 0xFE00#16 = 0x0000#16 ∧
        t.cond = s.cond ∧ SameRegsBut [] s t ∧ SameMemBut [0xFE00#16] s t ∧ t.console = c.console

/-- R62 (derived by the spec from R60 and R70): what a store leaves at an address is what the next read or fetch there finds, KBSR aside. -/
def Obligations.StoresAreSeenByTheNextFetch : Prop :=
  ∀ (i : Instr) (s t : State) (a : Word) (sr : Reg),
    exec i s = .next t → storeAddress i s = some a → storeSource i = some sr → a ≠ s.config.kbsrAddr →
    memRead a t = .done (s.reg sr) t ∧
      (t.status = .running → t.pc = a → a ≠ s.config.haltPc → step t = exec (decode (s.reg sr)) (t.setPc (a + 1#16)))

/-- R56 (derived by the spec from R50, R51 and R53): a value stored to KBSR is gone by the time a read of KBSR returns, which answers and leaves
what it would have without the store. -/
def Obligations.StoreToTheStatusCellIsNeverReadBack : Prop :=
  ∀ (v x : Word) (s d : State),
    memRead s.config.kbsrAddr (memWrite s.config.kbsrAddr v s) = .done x d →
    ∃ e, memRead s.config.kbsrAddr s = .done x e ∧ d.console = e.console ∧ ∀ a, d.word a = e.word a

/-- R22 to R24 and R140 as one rule of the whole machine: an instruction writes no general register but those its rule names, and no parameter. -/
def Obligations.RegistersChangeOnlyWhereNamed : Prop :=
  ∀ (i : Instr) (s t : State), exec i s = .next t →
    (∀ r, r ∉ writtenRegs i → t.reg r = s.reg r) ∧ t.config = s.config

/-- R53 to R55: an instruction changes no memory cell but the one it stores to and, by a poll, the two keyboard cells. -/
def Obligations.MemoryChangesOnlyByStoresAndPolls : Prop :=
  ∀ (i : Instr) (s t : State), exec i s = .next t →
    ∀ a, storeAddress i s ≠ some a → a ≠ s.config.kbsrAddr → a ≠ s.config.kbdrAddr → t.word a = s.word a

/-- R28 and R29 (GETC and IN by decision D8, the parameter free): only a result-producing instruction writes COND, and one that completes leaves exactly
one flag. -/
def Obligations.CondIsWrittenOnlyByResultProducers : Prop :=
  ∀ (i : Instr) (s t : State), exec i s = .next t →
    (writesCond s.config i = false → t.cond = s.cond) ∧
    (writesCond s.config i = true → t.status = s.status → s.status = .running → CondOneFlag t)

/-- R30 (derived by the spec from R27 and R28): nothing reads COND[15:3]. Two machines that differ only there take steps that differ only there. -/
def Obligations.ReservedCondBitsAreNeverRead : Prop :=
  ∀ (bits : BitVec 13) (s : State), step (withReserved bits s) = mapNext (withReserved bits) (step s)

/-- R161 and R152 (the opcode and vector numbers are decisions D2 to D4 and D6): of a running machine, exactly the words with opcode 1000 or 1101 raise
ReservedOpcode and exactly the TRAP words with a vector outside 0x20-0x25 raise UnknownTrapVector, whatever the state. -/
def Obligations.OpcodeFaultsDependOnTheWordAlone : Prop :=
  ∀ (w : Word) (s : State), s.status = .running →
    ((∃ t, exec (decode w) s = .next t ∧ FaultedWith .reservedOpcode t) ↔
      w.toNat / 4096 = 8 ∨ w.toNat / 4096 = 13) ∧
    ((∃ t, exec (decode w) s = .next t ∧ FaultedWith .unknownTrapVector t) ↔
      w.toNat / 4096 = 15 ∧ (w.toNat % 256 < 0x20 ∨ 0x25 < w.toNat % 256))

/-- R163 and R164 (decision D23) of every step: a step that ends faulted leaves the registers, COND and pc as before it, with the record's address that
pc and its word the word fetched there (from KBSR, the word its poll left); memory as before but for the keyboard cells; the output with nothing taken back; and, for an opcode or vector fault of a plainly
fetched word, memory and console exactly as before. -/
def Obligations.FaultsArePrecise : Prop :=
  ∀ (s t : State) (record : FaultRecord), step s = .next t → t.status = .faulted record →
    record.faultPc = s.pc ∧ t.pc = s.pc ∧ t.cond = s.cond ∧ SameRegsBut [] s t ∧ t.config = s.config ∧
    SameMemBut [s.config.kbsrAddr, s.config.kbdrAddr] s t ∧ s.console.output <+: t.console.output ∧
    (s.pc ≠ s.config.kbsrAddr → record.word = s.word s.pc) ∧
    (s.pc = s.config.kbsrAddr → record.kind ≠ .consoleIOFailure → record.word = t.word s.pc) ∧
    (s.pc ≠ s.config.kbsrAddr → record.kind ≠ .consoleIOFailure → t.console = s.console ∧ ∀ a, t.word a = s.word a)

/-- The invariant (canonical memory, one condition flag, a fault record, if any, of a core kind and at the pc: R29, R32, R160, R164; the canonical form is the model's,
notes/assumptions/1.md) holds at reset, and of a machine reset with any parameters that have it. -/
def Obligations.InvariantHoldsAtReset : Prop :=
  Inv State.reset ∧
  ∀ (p : Config.Params) (host : Console), Memory.wf p.memReset = true → CondOneFlag (State.resetWith p host) → Inv (State.resetWith p host)

/-- Every step keeps the invariant (R29, R32, R160, R164). -/
def Obligations.StepKeepsTheInvariant : Prop :=
  ∀ s t : State, Inv s → step s = .next t → Inv t

/-- R34 and R186 (the values are decisions D14, D15 and D19 to D22; the pc before a load and the console of State.reset are the model's choices,
notes/assumptions/2.md and 3.md, and are not stated): a machine is reset to its `reg_reset`, `cond_reset` and `mem_reset`, which in the machine of the spec are zero,
Z and zero, running; and after a load the pc is the origin, and registers, COND, host and parameters are as at reset. -/
def Obligations.ResetLeavesTheSpecsValues : Prop :=
  (∀ (p : Config.Params) (host : Console),
    (∀ k, (h : k < 8) → (State.resetWith p host).reg (BitVec.ofNat 3 k) = p.regReset[k]) ∧ (State.resetWith p host).cond = p.condReset ∧
    (∀ a, (State.resetWith p host).word a = Memory.read p.memReset a.toNat) ∧ (State.resetWith p host).status = .running ∧
    ∀ (hi lo : Byte) (rest : List Byte), rest.length % 2 = 0 →
      ∃ s, boot p host (some (hi :: lo :: rest)) = .ok s ∧ s.pc.toNat = 256 * hi.toNat + lo.toNat ∧
        SameRegsBut [] (State.resetWith p host) s ∧ s.cond = p.condReset ∧ s.status = .running ∧ s.console = host ∧ s.config = p) ∧
  SpecValues State.reset.config ∧ State.reset.config.kbPolicy = .nonBlocking ∧
  (∀ r, State.reset.reg r = 0x0000#16) ∧ State.reset.cond = 0x0002#16 ∧ (∀ a, State.reset.word a = 0x0000#16) ∧
  State.reset.status = .running

/-- R180 and R183 (the image of no byte is decision D25): an image that cannot be opened and an image of no byte fail, each with its own kind, and give no
state, so they write nothing; any other image of an even number of bytes loads. (An odd number: LoaderPlacesTheImage.) -/
def Obligations.BadImagesAreRejected : Prop :=
  ∀ s : State,
    loadImage none s = .error .imageNotFound ∧
    loadImage (some []) s = .error .imageMalformed ∧
    (∀ bytes : List Byte, bytes.length % 2 = 0 → bytes ≠ [] → ∃ t, loadImage (some bytes) s = .ok t)

/-- R181 and R182: an image of an odd number of bytes is malformed and gives no state, so it writes nothing. Otherwise word i+1 of the image, high byte first,
is at origin + i, the later of two words for one address winning; cells the image does not reach, and everything but memory and the pc, are as before; the pc
is the origin. -/
def Obligations.LoaderPlacesTheImage : Prop :=
  (∀ (s : State) (bytes : List Byte), bytes.length % 2 = 1 → loadImage (some bytes) s = .error .imageMalformed) ∧
  ∀ (s : State) (bytes : List Byte) (n : Nat), bytes.length = 2 * n + 2 →
    ∃ t, loadImage (some bytes) s = .ok t ∧
      t.pc.toNat = 256 * (bytes.getD 0 0#8).toNat + (bytes.getD 1 0#8).toNat ∧
      (∀ i, i < n → n ≤ i + 65536 →
        (t.word (t.pc + BitVec.ofNat 16 i)).toNat =
          256 * (bytes.getD (2 * i + 2) 0#8).toNat + (bytes.getD (2 * i + 3) 0#8).toNat) ∧
      (∀ a : Word, (∀ i, i < n → a ≠ t.pc + BitVec.ofNat 16 i) → t.word a = s.word a) ∧
      SameRegsBut [] s t ∧ t.cond = s.cond ∧ t.status = s.status ∧ t.console = s.console ∧ t.config = s.config

/-- R184 and R185 (decision D22; the count of rounds and the stop of a step that never completes are the model's, notes/assumptions/13.md and 9.md). The loop, round
by round: a faulted state is the end, a running one at HALT_PC is the end, and any other takes a step and goes on, or hangs if the step has no next state. And
what a run has come to was reached by that many steps: halted, running at HALT_PC; faulted, with its record as its status; hanging where a step never completes;
or unfinished after one step for each round. More rounds change no ended run. -/
def Obligations.RunsEndHaltedOrFaulted : Prop :=
  ∀ (k : Nat) (s : State),
    (∀ record, s.status = .faulted record → runFor (k + 1) s = .faulted record s) ∧
    (s.status = .running → s.pc = s.config.haltPc → runFor (k + 1) s = .halted s) ∧
    (s.status = .running → s.pc ≠ s.config.haltPc →
      match step s with
      | .next t => runFor (k + 1) s = runFor k t
      | .fault f => runFor (k + 1) s = .hangs f s
      | .refused _ => False) ∧
    match runFor k s with
    | .halted t => t.status = .running ∧ t.pc = t.config.haltPc ∧ (∃ j, j < k ∧ Host.Core.run Sys2Proof.core j s = .next t) ∧
        ∀ j, runFor (k + j) s = .halted t
    | .faulted record t => t.status = .faulted record ∧ (∃ j, j < k ∧ Host.Core.run Sys2Proof.core j s = .next t) ∧
        ∀ j, runFor (k + j) s = .faulted record t
    | .hangs f t => t.status = .running ∧ t.pc ≠ t.config.haltPc ∧ step t = .fault f ∧ (f = .waitingForInput ∨ f = .scanNeverEnds) ∧
        (∃ j, j < k ∧ Host.Core.run Sys2Proof.core j s = .next t) ∧ ∀ j, runFor (k + j) s = .hangs f t
    | .unfinished t => Host.Core.run Sys2Proof.core k s = .next t

/-- R44 (decisions D22, D24, D26): from an image, the parameters and a host, the status output is the loader's kind if the load fails; and after a load it is halted,
or a record, exactly if fewer steps than there are rounds lead to a running state at HALT_PC, or to a state with that record. (The count of rounds is the model's,
notes/assumptions/13.md.) -/
def Obligations.StatusOutputPresentsTheEnd : Prop :=
  ∀ (rounds : Nat) (p : Config.Params) (host : Console) (image : Option (List Byte)),
    match boot p host image with
    | .error kind => statusOutput rounds p host image = .loadFault kind
    | .ok s =>
      (statusOutput rounds p host image = .halted ↔
        ∃ j t, j < rounds ∧ Host.Core.run Sys2Proof.core j s = .next t ∧ t.status = .running ∧ t.pc = t.config.haltPc) ∧
      (∀ record, statusOutput rounds p host image = .coreFault record ↔
        ∃ j t, j < rounds ∧ Host.Core.run Sys2Proof.core j s = .next t ∧ t.status = .faulted record) ∧
      ∀ kind, statusOutput rounds p host image ≠ .loadFault kind

/-- The model's own (notes/assumptions/4.md): the state withFetchWord gives runs the placed word as its very next step, whatever the state it is given. -/
def Obligations.PlacedWordIsTheNextInstruction : Prop :=
  ∀ (s : State) (w : Word),
    ∃ t, s.withFetchWord 16 w.toNat = t ∧ step t = exec (decode w) (t.setPc (t.pc + 1#16)) ∧
      SameRegsBut [] s t ∧ SameMemBut [t.pc] s t ∧ t.cond = s.cond ∧ t.console = s.console ∧ t.config = s.config ∧
      (s.pc ≠ s.config.haltPc → s.pc ≠ s.config.kbsrAddr → t.pc = s.pc)
end

