-- ==== Sys2Proof/Laws/State.lean ====
section
/-! SUPPORT. What each named update does to each field of State: one lemma per field, so that no later proof unfolds a record update. -/

namespace Sys2Proof.Machine

/-! ### setReg -/

@[simp] theorem setReg_pc (s : State) (q : Reg) (v : Word) : (s.setReg q v).pc = s.pc := rfl

@[simp] theorem setReg_cond (s : State) (q : Reg) (v : Word) : (s.setReg q v).cond = s.cond := rfl

@[simp] theorem setReg_mem (s : State) (q : Reg) (v : Word) : (s.setReg q v).mem = s.mem := rfl

@[simp] theorem setReg_status (s : State) (q : Reg) (v : Word) : (s.setReg q v).status = s.status := rfl

@[simp] theorem setReg_console (s : State) (q : Reg) (v : Word) : (s.setReg q v).console = s.console := rfl

@[simp] theorem setReg_config (s : State) (q : Reg) (v : Word) : (s.setReg q v).config = s.config := rfl

/-! ### setPc -/

@[simp] theorem setPc_reg (s : State) (v : Word) (r : Reg) : (s.setPc v).reg r = s.reg r := rfl

@[simp] theorem setPc_pc (s : State) (v : Word) : (s.setPc v).pc = v := rfl

@[simp] theorem setPc_cond (s : State) (v : Word) : (s.setPc v).cond = s.cond := rfl

@[simp] theorem setPc_mem (s : State) (v : Word) : (s.setPc v).mem = s.mem := rfl

@[simp] theorem setPc_status (s : State) (v : Word) : (s.setPc v).status = s.status := rfl

@[simp] theorem setPc_console (s : State) (v : Word) : (s.setPc v).console = s.console := rfl

@[simp] theorem setPc_config (s : State) (v : Word) : (s.setPc v).config = s.config := rfl

/-! ### setcc -/

@[simp] theorem setcc_reg (s : State) (v : Word) (r : Reg) : (setcc v s).reg r = s.reg r := rfl

@[simp] theorem setcc_pc (s : State) (v : Word) : (setcc v s).pc = s.pc := rfl

@[simp] theorem setcc_cond (s : State) (v : Word) : (setcc v s).cond = condAfter v s.cond := rfl

@[simp] theorem setcc_mem (s : State) (v : Word) : (setcc v s).mem = s.mem := rfl

@[simp] theorem setcc_status (s : State) (v : Word) : (setcc v s).status = s.status := rfl

@[simp] theorem setcc_console (s : State) (v : Word) : (setcc v s).console = s.console := rfl

@[simp] theorem setcc_config (s : State) (v : Word) : (setcc v s).config = s.config := rfl

/-! ### setccIfTrapSets -/

@[simp] theorem setccIfTrapSets_reg (s : State) (v : Word) (r : Reg) : (setccIfTrapSets v s).reg r = s.reg r := rfl

@[simp] theorem setccIfTrapSets_pc (s : State) (v : Word) : (setccIfTrapSets v s).pc = s.pc := rfl

@[simp] theorem setccIfTrapSets_cond (s : State) (v : Word) : (setccIfTrapSets v s).cond = if s.config.trapSetsCc then condAfter v s.cond else s.cond := rfl

@[simp] theorem setccIfTrapSets_mem (s : State) (v : Word) : (setccIfTrapSets v s).mem = s.mem := rfl

@[simp] theorem setccIfTrapSets_status (s : State) (v : Word) : (setccIfTrapSets v s).status = s.status := rfl

@[simp] theorem setccIfTrapSets_console (s : State) (v : Word) : (setccIfTrapSets v s).console = s.console := rfl

@[simp] theorem setccIfTrapSets_config (s : State) (v : Word) : (setccIfTrapSets v s).config = s.config := rfl

/-! ### setWord -/

@[simp] theorem setWord_reg (s : State) (a v : Word) (r : Reg) : (s.setWord a v).reg r = s.reg r := rfl

@[simp] theorem setWord_pc (s : State) (a v : Word) : (s.setWord a v).pc = s.pc := rfl

@[simp] theorem setWord_cond (s : State) (a v : Word) : (s.setWord a v).cond = s.cond := rfl

@[simp] theorem setWord_mem (s : State) (a v : Word) : (s.setWord a v).mem = s.mem.write a.toNat v := rfl

@[simp] theorem setWord_status (s : State) (a v : Word) : (s.setWord a v).status = s.status := rfl

@[simp] theorem setWord_console (s : State) (a v : Word) : (s.setWord a v).console = s.console := rfl

@[simp] theorem setWord_config (s : State) (a v : Word) : (s.setWord a v).config = s.config := rfl

/-! ### memWrite -/

@[simp] theorem memWrite_reg (s : State) (a v : Word) (r : Reg) : (memWrite a v s).reg r = s.reg r := rfl

@[simp] theorem memWrite_pc (s : State) (a v : Word) : (memWrite a v s).pc = s.pc := rfl

@[simp] theorem memWrite_cond (s : State) (a v : Word) : (memWrite a v s).cond = s.cond := rfl

@[simp] theorem memWrite_mem (s : State) (a v : Word) : (memWrite a v s).mem = s.mem.write a.toNat v := rfl

@[simp] theorem memWrite_status (s : State) (a v : Word) : (memWrite a v s).status = s.status := rfl

@[simp] theorem memWrite_console (s : State) (a v : Word) : (memWrite a v s).console = s.console := rfl

@[simp] theorem memWrite_config (s : State) (a v : Word) : (memWrite a v s).config = s.config := rfl

/-! ### setPending -/

@[simp] theorem setPending_reg (s : State) (l : List HostAnswer) (r : Reg) : (s.setPending l).reg r = s.reg r := rfl

@[simp] theorem setPending_pc (s : State) (l : List HostAnswer) : (s.setPending l).pc = s.pc := rfl

@[simp] theorem setPending_cond (s : State) (l : List HostAnswer) : (s.setPending l).cond = s.cond := rfl

@[simp] theorem setPending_mem (s : State) (l : List HostAnswer) : (s.setPending l).mem = s.mem := rfl

@[simp] theorem setPending_status (s : State) (l : List HostAnswer) : (s.setPending l).status = s.status := rfl

@[simp] theorem setPending_console (s : State) (l : List HostAnswer) : (s.setPending l).console = { s.console with pending := l } := rfl

@[simp] theorem setPending_config (s : State) (l : List HostAnswer) : (s.setPending l).config = s.config := rfl

/-! ### accept -/

@[simp] theorem accept_reg (s : State) (bytes : List Byte) (left : Option Nat) (r : Reg) : (s.accept bytes left).reg r = s.reg r := rfl

@[simp] theorem accept_pc (s : State) (bytes : List Byte) (left : Option Nat) : (s.accept bytes left).pc = s.pc := rfl

@[simp] theorem accept_cond (s : State) (bytes : List Byte) (left : Option Nat) : (s.accept bytes left).cond = s.cond := rfl

@[simp] theorem accept_mem (s : State) (bytes : List Byte) (left : Option Nat) : (s.accept bytes left).mem = s.mem := rfl

@[simp] theorem accept_status (s : State) (bytes : List Byte) (left : Option Nat) : (s.accept bytes left).status = s.status := rfl

@[simp] theorem accept_console (s : State) (bytes : List Byte) (left : Option Nat) : (s.accept bytes left).console = { s.console with output := s.console.output ++ bytes, writesLeft := left } := rfl

@[simp] theorem accept_config (s : State) (bytes : List Byte) (left : Option Nat) : (s.accept bytes left).config = s.config := rfl

/-! ### storeKey -/

@[simp] theorem storeKey_reg (s : State) (b : Byte) (r : Reg) : (storeKey b s).reg r = s.reg r := rfl

@[simp] theorem storeKey_pc (s : State) (b : Byte) : (storeKey b s).pc = s.pc := rfl

@[simp] theorem storeKey_cond (s : State) (b : Byte) : (storeKey b s).cond = s.cond := rfl

@[simp] theorem storeKey_mem (s : State) (b : Byte) : (storeKey b s).mem = (s.mem.write s.config.kbdrAddr.toNat (zext b)).write s.config.kbsrAddr.toNat s.config.kbsrReady := rfl

@[simp] theorem storeKey_status (s : State) (b : Byte) : (storeKey b s).status = s.status := rfl

@[simp] theorem storeKey_console (s : State) (b : Byte) : (storeKey b s).console = s.console := rfl

@[simp] theorem storeKey_config (s : State) (b : Byte) : (storeKey b s).config = s.config := rfl

/-! ### clearKey -/

@[simp] theorem clearKey_reg (s : State) (r : Reg) : (clearKey s).reg r = s.reg r := rfl

@[simp] theorem clearKey_pc (s : State) : (clearKey s).pc = s.pc := rfl

@[simp] theorem clearKey_cond (s : State) : (clearKey s).cond = s.cond := rfl

@[simp] theorem clearKey_mem (s : State) : (clearKey s).mem = s.mem.write s.config.kbsrAddr.toNat s.config.kbsrNotReady := rfl

@[simp] theorem clearKey_status (s : State) : (clearKey s).status = s.status := rfl

@[simp] theorem clearKey_console (s : State) : (clearKey s).console = s.console := rfl

@[simp] theorem clearKey_config (s : State) : (clearKey s).config = s.config := rfl

/-! ### storeAnswer -/

@[simp] theorem storeAnswer_reg (s : State) (answer : Option Byte) (r : Reg) : (storeAnswer answer s).reg r = s.reg r := by cases answer <;> rfl

@[simp] theorem storeAnswer_regs (s : State) (answer : Option Byte) : (storeAnswer answer s).regs = s.regs := by cases answer <;> rfl

@[simp] theorem storeAnswer_pc (s : State) (answer : Option Byte) : (storeAnswer answer s).pc = s.pc := by cases answer <;> rfl

@[simp] theorem storeAnswer_cond (s : State) (answer : Option Byte) : (storeAnswer answer s).cond = s.cond := by cases answer <;> rfl

@[simp] theorem storeAnswer_status (s : State) (answer : Option Byte) : (storeAnswer answer s).status = s.status := by cases answer <;> rfl

@[simp] theorem storeAnswer_console (s : State) (answer : Option Byte) : (storeAnswer answer s).console = s.console := by cases answer <;> rfl

@[simp] theorem storeAnswer_config (s : State) (answer : Option Byte) : (storeAnswer answer s).config = s.config := by cases answer <;> rfl

/-! ### linkR7 -/

@[simp] theorem linkR7_pc (s : State) : (linkR7 s).pc = s.pc := rfl

@[simp] theorem linkR7_cond (s : State) : (linkR7 s).cond = s.cond := rfl

@[simp] theorem linkR7_mem (s : State) : (linkR7 s).mem = s.mem := rfl

@[simp] theorem linkR7_status (s : State) : (linkR7 s).status = s.status := rfl

@[simp] theorem linkR7_console (s : State) : (linkR7 s).console = s.console := rfl

@[simp] theorem linkR7_config (s : State) : (linkR7 s).config = s.config := rfl

/-! ### trapLink -/

@[simp] theorem trapLink_pc (s : State) : (trapLink s).pc = s.pc := rfl

@[simp] theorem trapLink_cond (s : State) : (trapLink s).cond = s.cond := rfl

@[simp] theorem trapLink_mem (s : State) : (trapLink s).mem = s.mem := rfl

@[simp] theorem trapLink_status (s : State) : (trapLink s).status = s.status := rfl

@[simp] theorem trapLink_console (s : State) : (trapLink s).console = s.console := rfl

@[simp] theorem trapLink_config (s : State) : (trapLink s).config = s.config := rfl

/-! ### receiveByte -/

@[simp] theorem receiveByte_pc (s : State) (b : Byte) : (receiveByte b s).pc = s.pc := rfl

@[simp] theorem receiveByte_cond (s : State) (b : Byte) : (receiveByte b s).cond = if s.config.trapSetsCc then condAfter (zext b) s.cond else s.cond := rfl

@[simp] theorem receiveByte_mem (s : State) (b : Byte) : (receiveByte b s).mem = s.mem := rfl

@[simp] theorem receiveByte_status (s : State) (b : Byte) : (receiveByte b s).status = s.status := rfl

@[simp] theorem receiveByte_console (s : State) (b : Byte) : (receiveByte b s).console = s.console := rfl

@[simp] theorem receiveByte_config (s : State) (b : Byte) : (receiveByte b s).config = s.config := rfl

/-! ### writeResult -/

@[simp] theorem writeResult_pc (s : State) (dr : Reg) (v : Word) : (writeResult dr v s).pc = s.pc := rfl

@[simp] theorem writeResult_cond (s : State) (dr : Reg) (v : Word) : (writeResult dr v s).cond = condAfter v s.cond := rfl

@[simp] theorem writeResult_mem (s : State) (dr : Reg) (v : Word) : (writeResult dr v s).mem = s.mem := rfl

@[simp] theorem writeResult_status (s : State) (dr : Reg) (v : Word) : (writeResult dr v s).status = s.status := rfl

@[simp] theorem writeResult_console (s : State) (dr : Reg) (v : Word) : (writeResult dr v s).console = s.console := rfl

@[simp] theorem writeResult_config (s : State) (dr : Reg) (v : Word) : (writeResult dr v s).config = s.config := rfl

/-! ### takeFault -/

@[simp] theorem takeFault_reg (k : ErrorKind) (ipc w : Word) (s d : State) (r : Reg) : (takeFault k ipc w s d).reg r = s.reg r := rfl

@[simp] theorem takeFault_pc (k : ErrorKind) (ipc w : Word) (s d : State) : (takeFault k ipc w s d).pc = ipc := rfl

@[simp] theorem takeFault_cond (k : ErrorKind) (ipc w : Word) (s d : State) : (takeFault k ipc w s d).cond = s.cond := rfl

@[simp] theorem takeFault_mem (k : ErrorKind) (ipc w : Word) (s d : State) : (takeFault k ipc w s d).mem = d.mem := rfl

@[simp] theorem takeFault_status (k : ErrorKind) (ipc w : Word) (s d : State) : (takeFault k ipc w s d).status = .faulted ⟨k, ipc, w⟩ := rfl

@[simp] theorem takeFault_console (k : ErrorKind) (ipc w : Word) (s d : State) : (takeFault k ipc w s d).console = d.console := rfl

@[simp] theorem takeFault_config (k : ErrorKind) (ipc w : Word) (s d : State) : (takeFault k ipc w s d).config = s.config := rfl

/-! ### raise -/

@[simp] theorem raise_reg (k : ErrorKind) (i : Instr) (s d : State) (r : Reg) : (raise k i s d).reg r = s.reg r := rfl

@[simp] theorem raise_pc (k : ErrorKind) (i : Instr) (s d : State) : (raise k i s d).pc = s.pc - 1#16 := rfl

@[simp] theorem raise_cond (k : ErrorKind) (i : Instr) (s d : State) : (raise k i s d).cond = s.cond := rfl

@[simp] theorem raise_mem (k : ErrorKind) (i : Instr) (s d : State) : (raise k i s d).mem = d.mem := rfl

@[simp] theorem raise_status (k : ErrorKind) (i : Instr) (s d : State) : (raise k i s d).status = .faulted ⟨k, s.pc - 1#16, encode i⟩ := rfl

@[simp] theorem raise_console (k : ErrorKind) (i : Instr) (s d : State) : (raise k i s d).console = d.console := rfl

@[simp] theorem raise_config (k : ErrorKind) (i : Instr) (s d : State) : (raise k i s d).config = s.config := rfl

/-! ### resetWith -/

@[simp] theorem resetWith_regs (p : Config.Params) (host : Console) : (State.resetWith p host).regs = p.regReset := rfl

@[simp] theorem resetWith_pc (p : Config.Params) (host : Console) : (State.resetWith p host).pc = Config.loadOrigin := rfl

@[simp] theorem resetWith_cond (p : Config.Params) (host : Console) : (State.resetWith p host).cond = p.condReset := rfl

@[simp] theorem resetWith_mem (p : Config.Params) (host : Console) : (State.resetWith p host).mem = p.memReset := rfl

@[simp] theorem resetWith_status (p : Config.Params) (host : Console) : (State.resetWith p host).status = .running := rfl

@[simp] theorem resetWith_console (p : Config.Params) (host : Console) : (State.resetWith p host).console = host := rfl

@[simp] theorem resetWith_config (p : Config.Params) (host : Console) : (State.resetWith p host).config = p := rfl

/-! ### placeWord -/

@[simp] theorem placeWord_reg (s : State) (w : Word) (r : Reg) : (placeWord w s).reg r = s.reg r := rfl

@[simp] theorem placeWord_pc (s : State) (w : Word) : (placeWord w s).pc = placePc s := rfl

@[simp] theorem placeWord_cond (s : State) (w : Word) : (placeWord w s).cond = s.cond := rfl

@[simp] theorem placeWord_mem (s : State) (w : Word) : (placeWord w s).mem = s.mem.write (placePc s).toNat w := rfl

@[simp] theorem placeWord_status (s : State) (w : Word) : (placeWord w s).status = .running := rfl

@[simp] theorem placeWord_console (s : State) (w : Word) : (placeWord w s).console = s.console := rfl

@[simp] theorem placeWord_config (s : State) (w : Word) : (placeWord w s).config = s.config := rfl

/-! ### Reading a register after one is written -/

theorem reg_setReg (s : State) (q r : Reg) (v : Word) :
    (s.setReg q v).reg r = if r = q then v else s.reg r := by
  simp [State.reg, State.setReg, Vector.getElem_set, BitVec.toNat_inj, eq_comm]

@[simp] theorem reg_setReg_self (s : State) (r : Reg) (v : Word) : (s.setReg r v).reg r = v := by
  simp [reg_setReg]

theorem reg_setReg_of_ne (s : State) (q r : Reg) (v : Word) (h : r ≠ q) : (s.setReg q v).reg r = s.reg r := by
  simp [reg_setReg, h]

@[simp] theorem linkR7_reg (s : State) (r : Reg) :
    (linkR7 s).reg r = if r = 7#3 then s.pc else s.reg r := reg_setReg ..

theorem trapLink_reg (s : State) (r : Reg) :
    (trapLink s).reg r = if r = 7#3 ∧ s.config.trapLinksR7 = true then s.pc else s.reg r := by
  by_cases h : r = 7#3 <;> cases hl : s.config.trapLinksR7 <;> simp [trapLink, reg_setReg, h, hl]

@[simp] theorem trapLink_reg_zero (s : State) : (trapLink s).reg 0#3 = s.reg 0#3 := by
  simp [trapLink_reg]

@[simp] theorem receiveByte_reg (s : State) (b : Byte) (r : Reg) :
    (receiveByte b s).reg r = if r = 0#3 then zext b else s.reg r := reg_setReg ..

@[simp] theorem writeResult_reg (s : State) (dr : Reg) (v : Word) (r : Reg) :
    (writeResult dr v s).reg r = if r = dr then v else s.reg r := reg_setReg ..

/-- Two register files that agree under `reg` are the same vector. -/
theorem regs_eq_of_reg {s t : State} (h : ∀ r, t.reg r = s.reg r) : t.regs = s.regs := by
  apply Vector.ext
  intro i hi
  have h8 := h (BitVec.ofNat 3 i)
  have hm : i % 8 = i := Nat.mod_eq_of_lt hi
  simpa [State.reg, hm] using h8

/-! ### Stored memory seen through `word` -/

@[simp] theorem setReg_word (s : State) (q : Reg) (v a : Word) : (s.setReg q v).word a = s.word a := rfl

@[simp] theorem setPc_word (s : State) (v a : Word) : (s.setPc v).word a = s.word a := rfl

@[simp] theorem setcc_word (s : State) (v a : Word) : (setcc v s).word a = s.word a := rfl

@[simp] theorem setPending_word (s : State) (l : List HostAnswer) (a : Word) : (s.setPending l).word a = s.word a := rfl

@[simp] theorem accept_word (s : State) (bytes : List Byte) (left : Option Nat) (a : Word) :
    (s.accept bytes left).word a = s.word a := rfl

@[simp] theorem linkR7_word (s : State) (a : Word) : (linkR7 s).word a = s.word a := rfl

@[simp] theorem trapLink_word (s : State) (a : Word) : (trapLink s).word a = s.word a := rfl

@[simp] theorem receiveByte_word (s : State) (b : Byte) (a : Word) : (receiveByte b s).word a = s.word a := rfl

@[simp] theorem writeResult_word (s : State) (dr : Reg) (v a : Word) : (writeResult dr v s).word a = s.word a := rfl

@[simp] theorem raise_word (k : ErrorKind) (i : Instr) (s d : State) (a : Word) : (raise k i s d).word a = d.word a := rfl

@[simp] theorem takeFault_word (k : ErrorKind) (ipc w : Word) (s d : State) (a : Word) :
    (takeFault k ipc w s d).word a = d.word a := rfl

end Sys2Proof.Machine
end

