-- ==== Sys2Proof/Laws/Memory.lean ====
section
/-! SUPPORT. Stored memory: a read after a write, and the canonical form kept by every operation (spec/20_memory.md R53, R60). -/

namespace Sys2Proof.Machine

theorem Memory.read_cons (c : Nat × Word) (m : Memory) (a : Nat) :
    Memory.read (c :: m) a = if c.1 = a then c.2 else Memory.read m a := rfl

theorem Memory.read_erase (m : Memory) (a b : Nat) :
    (m.erase a).read b = if b = a then unlistedWord else m.read b := by
  induction m with
  | nil => by_cases h : b = a <;> simp [Memory.erase, Memory.read, h]
  | cons c m ih =>
    unfold Memory.erase at ih ⊢
    rw [List.filter_cons]
    by_cases hc : c.1 = a
    · simp only [hc, bne_self_eq_false, Bool.false_eq_true, if_false, ih, Memory.read_cons]
      by_cases hb : b = a
      · simp [hb]
      · simp [hb, Ne.symm hb]
    · have : (c.1 != a) = true := by simpa using hc
      simp only [this, if_true, Memory.read_cons, ih]
      by_cases hb : c.1 = b
      · have : b ≠ a := fun h => hc (hb.trans h)
        simp [hb, this]
      · simp [hb]

theorem Memory.read_insert (m : Memory) (a b : Nat) (v : Word) (h : m.read a = unlistedWord)
    (ha : ∀ c ∈ m, c.1 ≠ a) : (m.insert a v).read b = if b = a then v else m.read b := by
  induction m with
  | nil =>
    by_cases hb : b = a
    · simp [Memory.insert, Memory.read, hb]
    · simp [Memory.insert, Memory.read, hb, Ne.symm hb]
  | cons c m ih =>
    have hca : c.1 ≠ a := ha c (by simp)
    unfold Memory.insert
    by_cases hlt : a < c.1
    · simp only [hlt, if_true, Memory.read_cons]
      by_cases hb : b = a
      · simp [hb]
      · simp [hb, Ne.symm hb]
    · simp only [hlt, if_false, Memory.read_cons] at h ⊢
      rw [if_neg hca] at h
      rw [ih h (fun d hd => ha d (by simp [hd]))]
      by_cases hb : c.1 = b
      · have : b ≠ a := fun e => hca (hb.trans e)
        simp [hb, this]
      · simp [hb]

theorem Memory.erase_fst_ne (m : Memory) (a : Nat) : ∀ c ∈ m.erase a, c.1 ≠ a := by
  intro c hc
  simpa using (List.mem_filter.mp hc).2

/-- A read after a write: the written word at its address, and every other address as before (R53, R60). -/
theorem Memory.read_write (m : Memory) (a b : Nat) (v : Word) :
    (m.write a v).read b = if b = a then v else m.read b := by
  unfold Memory.write
  by_cases hv : v = unlistedWord
  · simp [hv, Memory.read_erase]
  · rw [if_neg hv, Memory.read_insert _ _ _ _ (by simp [Memory.read_erase]) (Memory.erase_fst_ne m a)]
    by_cases hb : b = a <;> simp [hb, Memory.read_erase]

theorem Memory.wf_cons (c : Nat × Word) (m : Memory) :
    Memory.wf (c :: m) = true ↔
      c.1 < 65536 ∧ c.2 ≠ unlistedWord ∧ (∀ d ∈ m, c.1 < d.1) ∧ Memory.wf m = true := by
  simp [Memory.wf, and_assoc]

theorem Memory.wf_erase {m : Memory} (h : m.wf = true) (a : Nat) : (m.erase a).wf = true := by
  induction m with
  | nil => rfl
  | cons c m ih =>
    obtain ⟨h1, h2, h3, h4⟩ := (Memory.wf_cons c m).mp h
    unfold Memory.erase at ih ⊢
    rw [List.filter_cons]
    split
    · exact (Memory.wf_cons _ _).mpr ⟨h1, h2, fun d hd => h3 d (List.mem_filter.mp hd).1, ih h4⟩
    · exact ih h4

theorem Memory.mem_insert (m : Memory) (a : Nat) (v : Word) (d : Nat × Word) :
    d ∈ m.insert a v → d = (a, v) ∨ d ∈ m := by
  induction m with
  | nil => simp [Memory.insert]
  | cons c m ih =>
    unfold Memory.insert
    split
    · simp
    · intro hd
      rcases List.mem_cons.mp hd with rfl | hd
      · simp
      · rcases ih hd with h | h <;> simp [h]

theorem Memory.wf_insert {m : Memory} (h : m.wf = true) (a : Nat) (v : Word) (ha : a < 65536)
    (hv : v ≠ unlistedWord) (hne : ∀ c ∈ m, c.1 ≠ a) : (m.insert a v).wf = true := by
  induction m with
  | nil => simp [Memory.insert, Memory.wf, ha, hv]
  | cons c m ih =>
    obtain ⟨h1, h2, h3, h4⟩ := (Memory.wf_cons c m).mp h
    have hca : c.1 ≠ a := hne c (by simp)
    unfold Memory.insert
    split
    · rename_i hlt
      refine (Memory.wf_cons _ _).mpr ⟨ha, hv, ?_, h⟩
      intro d hd
      rcases List.mem_cons.mp hd with rfl | hd
      · exact hlt
      · exact Nat.lt_trans hlt (h3 d hd)
    · refine (Memory.wf_cons _ _).mpr ⟨h1, h2, ?_, ih h4 (fun d hd => hne d (by simp [hd]))⟩
      intro d hd
      rcases Memory.mem_insert m a v d hd with rfl | hd
      · show c.1 < a
        omega
      · exact h3 d hd

/-- A write keeps the canonical form. -/
theorem Memory.wf_write {m : Memory} (h : m.wf = true) (a : Word) (v : Word) : (m.write a.toNat v).wf = true := by
  unfold Memory.write
  split
  · exact Memory.wf_erase h _
  · rename_i hv
    exact Memory.wf_insert (Memory.wf_erase h _) _ _ a.isLt hv (Memory.erase_fst_ne m _)

/-- The last of two writes to one address is the only one that shows. -/
theorem Memory.read_write_write (m : Memory) (a b : Nat) (v w : Word) :
    ((m.write a v).write a w).read b = (m.write a w).read b := by
  simp only [Memory.read_write]
  split <;> rfl

/-! ### The same through State -/

theorem word_setWord (s : State) (a b v : Word) : (s.setWord a v).word b = if b = a then v else s.word b := by
  simp [State.word, Memory.read_write, BitVec.toNat_inj]

@[simp] theorem word_setWord_self (s : State) (a v : Word) : (s.setWord a v).word a = v := by
  simp [word_setWord]

theorem word_setWord_of_ne (s : State) (a b v : Word) (h : b ≠ a) : (s.setWord a v).word b = s.word b := by
  simp [word_setWord, h]

theorem word_memWrite (s : State) (a b v : Word) : (memWrite a v s).word b = if b = a then v else s.word b :=
  word_setWord s a b v

@[simp] theorem storeKey_kbsr (s : State) (b : Byte) : (storeKey b s).word s.config.kbsrAddr = s.config.kbsrReady := by
  simp [storeKey]

theorem storeKey_kbdr (s : State) (b : Byte) (h : s.config.kbdrAddr ≠ s.config.kbsrAddr) :
    (storeKey b s).word s.config.kbdrAddr = zext b := by
  rw [storeKey, word_setWord_of_ne _ _ _ _ h, word_setWord_self]

theorem storeKey_word_of_ne (s : State) (b : Byte) (a : Word) (h1 : a ≠ s.config.kbsrAddr) (h2 : a ≠ s.config.kbdrAddr) :
    (storeKey b s).word a = s.word a := by
  simp [storeKey, word_setWord, h1, h2]

@[simp] theorem clearKey_kbsr (s : State) : (clearKey s).word s.config.kbsrAddr = s.config.kbsrNotReady := by
  simp [clearKey]

theorem clearKey_word_of_ne (s : State) (a : Word) (h : a ≠ s.config.kbsrAddr) : (clearKey s).word a = s.word a := by
  simp [clearKey, word_setWord, h]

theorem storeAnswer_word_of_ne (s : State) (answer : Option Byte) (a : Word) (h1 : a ≠ s.config.kbsrAddr) (h2 : a ≠ s.config.kbdrAddr) :
    (storeAnswer answer s).word a = s.word a := by
  cases answer with
  | some b => exact storeKey_word_of_ne s b a h1 h2
  | none => exact clearKey_word_of_ne s a h1

/-- Storing one answer twice stores it once. -/
theorem storeAnswer_storeAnswer_word (s : State) (answer : Option Byte) (a : Word) :
    (storeAnswer answer (storeAnswer answer s)).word a = (storeAnswer answer s).word a := by
  cases answer with
  | some b =>
    simp only [storeAnswer, storeKey, word_setWord, setWord_config]
    split <;> [rfl; (split <;> rfl)]
  | none =>
    simp only [storeAnswer, clearKey, word_setWord, setWord_config]
    split <;> rfl

theorem storeAnswer_wf {s : State} (answer : Option Byte) (h : s.mem.wf = true) : (storeAnswer answer s).mem.wf = true := by
  cases answer with
  | some b => exact Memory.wf_write (Memory.wf_write h s.config.kbdrAddr (zext b)) s.config.kbsrAddr s.config.kbsrReady
  | none => exact Memory.wf_write h s.config.kbsrAddr s.config.kbsrNotReady

/-! ### Canonical lists are the contents of the 65536 cells -/

/-- Every contents of the 65536 cells has a canonical list. -/
theorem Memory.exists_contents (f : Word → Word) : ∃ m : Memory, m.wf = true ∧ ∀ a : Word, m.read a.toNat = f a := by
  suffices h : ∀ n, n ≤ 65536 → ∃ m : Memory, m.wf = true ∧ ∀ a : Word, a.toNat < n → m.read a.toNat = f a by
    obtain ⟨m, h1, h2⟩ := h 65536 (Nat.le_refl _)
    exact ⟨m, h1, fun a => h2 a a.isLt⟩
  intro n
  induction n with
  | zero => exact fun _ => ⟨[], rfl, fun _ h => absurd h (Nat.not_lt_zero _)⟩
  | succ n ih =>
    intro hn
    obtain ⟨m, h1, h2⟩ := ih (by omega)
    have hb : (BitVec.ofNat 16 n).toNat = n := by simp; omega
    refine ⟨m.write (BitVec.ofNat 16 n).toNat (f (BitVec.ofNat 16 n)), Memory.wf_write h1 _ _, fun a ha => ?_⟩
    rw [Memory.read_write]
    split
    · rename_i heq
      rw [BitVec.eq_of_toNat_eq heq]
    · rename_i hne
      exact h2 a (by omega)

/-- A canonical memory reads as nothing stored below its first address. -/
theorem Memory.read_below {m : Memory} {a : Nat} (h : ∀ c ∈ m, a < c.1) : m.read a = unlistedWord := by
  induction m with
  | nil => rfl
  | cons c m ih =>
    have hc := h c (by simp)
    rw [Memory.read_cons, if_neg (by omega), ih (fun d hd => h d (by simp [hd]))]

/-- And only one: canonical memories that read alike are the same list. -/
theorem Memory.eq_of_read {m n : Memory} (hm : m.wf = true) (hn : n.wf = true) (h : ∀ a, m.read a = n.read a) : m = n := by
  induction m generalizing n with
  | nil =>
    cases n with
    | nil => rfl
    | cons d n =>
      obtain ⟨_, h2, _, _⟩ := (Memory.wf_cons d n).mp hn
      have := h d.1
      rw [Memory.read_cons, if_pos rfl] at this
      exact absurd this.symm h2
  | cons c m ih =>
    obtain ⟨_, hc2, hc3, hc4⟩ := (Memory.wf_cons c m).mp hm
    cases n with
    | nil =>
      have := h c.1
      rw [Memory.read_cons, if_pos rfl] at this
      exact absurd this hc2
    | cons d n =>
      obtain ⟨_, hd2, hd3, hd4⟩ := (Memory.wf_cons d n).mp hn
      have hlow : c.1 = d.1 := by
        rcases Nat.lt_trichotomy c.1 d.1 with hlt | heq | hlt
        · have h1 := h c.1
          rw [Memory.read_cons, if_pos rfl, Memory.read_below (m := d :: n)] at h1
          · exact absurd h1 hc2
          · intro e he
            rcases List.mem_cons.mp he with rfl | he
            · exact hlt
            · exact Nat.lt_trans hlt (hd3 e he)
        · exact heq
        · have h1 := h d.1
          rw [Memory.read_cons d, if_pos rfl, Memory.read_below (m := c :: m)] at h1
          · exact absurd h1.symm hd2
          · intro e he
            rcases List.mem_cons.mp he with rfl | he
            · exact hlt
            · exact Nat.lt_trans hlt (hc3 e he)
      have hval : c.2 = d.2 := by
        have h1 := h c.1
        rwa [Memory.read_cons, if_pos rfl, Memory.read_cons, if_pos hlow.symm] at h1
      have htail : m = n := ih hc4 hd4 fun a => by
        by_cases ha : c.1 = a
        · rw [Memory.read_below (m := m) (fun e he => by have := hc3 e he; omega),
            Memory.read_below (m := n) (fun e he => by have := hd3 e he; omega)]
        · have h1 := h a
          rwa [Memory.read_cons, if_neg ha, Memory.read_cons, if_neg (by omega)] at h1
      rw [htail, Prod.ext hlow hval]

/-- Reset memory has the canonical form. -/
theorem reset_mem_wf : State.reset.mem.wf = true := rfl

end Sys2Proof.Machine
end

