-- ==== Sys2Proof/Laws/Ops.lean ====
section
/-! SUPPORT. What each shared operation can do, said once (spec/10_state.md R40 to R43, spec/20_memory.md R50 to R53). Proofs cite these and do not unfold the operations. -/

namespace Sys2Proof.Machine

/-! ### Sequencing -/

@[simp] theorem Result.bind_done {α β : Type} (v : α) (s : State) (f : α → State → Result β) :
    (Result.done v s).bind f = f v s := rfl

@[simp] theorem Result.bind_failed {α β : Type} (s : State) (f : α → State → Result β) :
    (Result.failed s : Result α).bind f = .failed s := rfl

@[simp] theorem Result.bind_stuck {α β : Type} (w : Fault) (f : α → State → Result β) :
    (Result.stuck w : Result α).bind f = .stuck w := rfl

theorem Result.bind_eq_done {α β : Type} {r : Result α} {f : α → State → Result β} {v : β} {t : State}
    (h : r.bind f = .done v t) : ∃ u d, r = .done u d ∧ f u d = .done v t := by
  cases r with
  | done u d => exact ⟨u, d, rfl, h⟩
  | failed d => cases h
  | stuck w => cases h

theorem Result.bind_eq_failed {α β : Type} {r : Result α} {f : α → State → Result β} {t : State}
    (h : r.bind f = .failed t) : r = .failed t ∨ ∃ u d, r = .done u d ∧ f u d = .failed t := by
  cases r with
  | done u d => exact .inr ⟨u, d, rfl, h⟩
  | failed d => cases h; exact .inl rfl
  | stuck w => cases h

theorem Result.bind_eq_stuck {α β : Type} {r : Result α} {f : α → State → Result β} {w : Fault}
    (h : r.bind f = .stuck w) : r = .stuck w ∨ ∃ u d, r = .done u d ∧ f u d = .stuck w := by
  cases r with
  | done u d => exact .inr ⟨u, d, rfl, h⟩
  | failed d => cases h
  | stuck w => cases h; exact .inl rfl

/-! ### Host effects -/

theorem HostEffects.refl (s : State) : HostEffects s s :=
  ⟨rfl, rfl, rfl, rfl, rfl, fun _ _ _ => rfl, id, List.prefix_refl _⟩

theorem HostEffects.trans {s t u : State} (h : HostEffects s t) (k : HostEffects t u) : HostEffects s u where
  regs := k.regs.trans h.regs
  pc := k.pc.trans h.pc
  cond := k.cond.trans h.cond
  status := k.status.trans h.status
  config := k.config.trans h.config
  word a h1 h2 := (k.word a (by rwa [h.config]) (by rwa [h.config])).trans (h.word a h1 h2)
  wf := k.wf ∘ h.wf
  output := h.output.trans k.output

theorem HostEffects.reg {s t : State} (h : HostEffects s t) (r : Reg) : t.reg r = s.reg r := by
  simp [State.reg, h.regs]

theorem hostEffects_setPending (s : State) (l : List HostAnswer) : HostEffects s (s.setPending l) :=
  ⟨rfl, rfl, rfl, rfl, rfl, fun _ _ _ => rfl, id, List.prefix_refl _⟩

theorem hostEffects_accept (s : State) (bytes : List Byte) (left : Option Nat) : HostEffects s (s.accept bytes left) :=
  ⟨rfl, rfl, rfl, rfl, rfl, fun _ _ _ => rfl, id, List.prefix_append _ _⟩

theorem hostEffects_storeAnswer (s : State) (answer : Option Byte) : HostEffects s (storeAnswer answer s) where
  regs := storeAnswer_regs s answer
  pc := storeAnswer_pc s answer
  cond := storeAnswer_cond s answer
  status := storeAnswer_status s answer
  config := storeAnswer_config s answer
  word a h1 h2 := storeAnswer_word_of_ne s answer a h1 h2
  wf := storeAnswer_wf answer
  output := by rw [storeAnswer_console]

/-! ### Console primitives -/

/-- A poll takes at most one answer from the host and changes nothing else; it never waits. -/
theorem conPoll_cases (s : State) :
    (∃ a l, conPoll s = .done a (s.setPending l)) ∨ ∃ l, conPoll s = .failed (s.setPending l) := by
  unfold conPoll
  split
  · exact .inl ⟨_, _, rfl⟩
  · exact .inl ⟨_, _, rfl⟩
  · exact .inr ⟨_, rfl⟩
  · rename_i hp
    have hs : s = s.setPending [] := by
      conv => lhs; rw [show s = { s with console := { s.console with pending := s.console.pending } } from rfl]
      rw [hp]; rfl
    split
    · exact .inl ⟨_, [], by rw [← hs]⟩
    · exact .inl ⟨_, [], by rw [← hs]⟩
    · exact .inl ⟨_, [], by rw [← hs]⟩

theorem awaitByte_cases (s : State) (l : List HostAnswer) :
    (∃ b l', awaitByte s l = .done b (s.setPending l')) ∨ (∃ l', awaitByte s l = .failed (s.setPending l')) ∨
      awaitByte s l = .stuck .waitingForInput := by
  induction l with
  | nil =>
    unfold awaitByte
    split
    · exact .inr (.inl ⟨_, rfl⟩)
    · exact .inr (.inr rfl)
    · exact .inl ⟨_, _, rfl⟩
  | cons x l ih =>
    cases x with
    | byte b => exact .inl ⟨b, l, rfl⟩
    | notReady => exact ih
    | failure => exact .inr (.inl ⟨l, rfl⟩)

/-- A blocking read takes answers from the host and changes nothing else; if it does not end, it waits for input. -/
theorem conRead_cases (s : State) :
    (∃ b l, conRead s = .done b (s.setPending l)) ∨ (∃ l, conRead s = .failed (s.setPending l)) ∨
      conRead s = .stuck .waitingForInput :=
  awaitByte_cases s _

/-- A write is accepted, and appended, or fails with nothing changed; it never waits. -/
theorem conWrite_cases (b : Byte) (s : State) :
    (∃ left, conWrite b s = .done () (s.accept [b] left)) ∨ conWrite b s = .failed s := by
  unfold conWrite
  split
  · exact .inl ⟨_, rfl⟩
  · exact .inr rfl
  · exact .inl ⟨_, rfl⟩

/-- A list of writes appends all of it, or fails having appended a part. -/
theorem conWriteAll_cases (bytes : List Byte) (s : State) :
    (∃ left, conWriteAll bytes s = .done () (s.accept bytes left)) ∨
      ∃ n left, conWriteAll bytes s = .failed (s.accept (bytes.take n) left) := by
  unfold conWriteAll
  split
  · exact .inl ⟨_, rfl⟩
  · split
    · exact .inl ⟨_, rfl⟩
    · exact .inr ⟨_, _, rfl⟩

theorem accept_accept (s : State) (xs ys : List Byte) (m n : Option Nat) :
    (s.accept xs m).accept ys n = s.accept (xs ++ ys) n := by
  simp [State.accept]

theorem conWriteAll_nil (s : State) : conWriteAll [] s = .done () s := by
  unfold conWriteAll
  cases h : s.console.writesLeft <;> simp [State.accept, ← h]

/-- The list form is the byte-by-byte one (R38, R42). -/
theorem conWriteAll_cons (b : Byte) (bytes : List Byte) (s : State) :
    conWriteAll (b :: bytes) s = (conWrite b s).bind fun _ s1 => conWriteAll bytes s1 := by
  unfold conWriteAll conWrite
  cases h : s.console.writesLeft with
  | none => simp [State.accept]
  | some n =>
    cases n with
    | zero => simp [State.accept, ← h]
    | succ n =>
      by_cases hl : bytes.length ≤ n
      · simp [State.accept, hl]
      · simp [State.accept, hl]

/-! ### The address decoder -/

/-- A read of any cell but KBSR is plain (R50). -/
theorem memRead_plain (s : State) (a : Word) (h : a ≠ s.config.kbsrAddr) : memRead a s = .done (s.word a) s := by
  simp [memRead, h]

theorem memRead_kbsr (s : State) :
    memRead s.config.kbsrAddr s = (kbsrPoll s).bind fun _ s1 => .done (s1.word s.config.kbsrAddr) s1 := by
  simp [memRead]

/-- What a poll can do (R51, R52): store the host's answer, fail with memory as it was, or wait. -/
theorem kbsrPoll_cases (s : State) :
    (∃ answer l, kbsrPoll s = .done () (storeAnswer answer (s.setPending l))) ∨
      (∃ l, kbsrPoll s = .failed (s.setPending l)) ∨ kbsrPoll s = .stuck .waitingForInput := by
  unfold kbsrPoll
  split
  · rcases conPoll_cases s with ⟨answer, l, h⟩ | ⟨l, h⟩
    · rw [h]; exact .inl ⟨answer, l, rfl⟩
    · rw [h]; exact .inr (.inl ⟨l, rfl⟩)
  · rcases conRead_cases s with ⟨b, l, h⟩ | ⟨l, h⟩ | h
    · rw [h]; exact .inl ⟨some b, l, rfl⟩
    · rw [h]; exact .inr (.inl ⟨l, rfl⟩)
    · rw [h]; exact .inr (.inr rfl)

/-- A read changes nothing but what the host's answers do, and answers the word its address then holds. -/
theorem memRead_done {s t : State} {a v : Word} (h : memRead a s = .done v t) : HostEffects s t ∧ v = t.word a := by
  by_cases ha : a = s.config.kbsrAddr
  · subst ha
    rw [memRead_kbsr] at h
    rcases kbsrPoll_cases s with ⟨answer, l, hk⟩ | ⟨l, hk⟩ | hk <;> rw [hk] at h <;> cases h
    exact ⟨(hostEffects_setPending s l).trans (hostEffects_storeAnswer _ answer), rfl⟩
  · rw [memRead_plain s a ha] at h
    cases h
    exact ⟨.refl s, rfl⟩

theorem memRead_failed {s t : State} {a : Word} (h : memRead a s = .failed t) : HostEffects s t ∧ t.mem = s.mem := by
  by_cases ha : a = s.config.kbsrAddr
  · subst ha
    rw [memRead_kbsr] at h
    rcases kbsrPoll_cases s with ⟨answer, l, hk⟩ | ⟨l, hk⟩ | hk <;> rw [hk] at h <;> cases h
    exact ⟨hostEffects_setPending s l, rfl⟩
  · rw [memRead_plain s a ha] at h
    cases h

theorem memRead_stuck {s : State} {a : Word} {f : Fault} (h : memRead a s = .stuck f) : f = .waitingForInput := by
  by_cases ha : a = s.config.kbsrAddr
  · subst ha
    rw [memRead_kbsr] at h
    rcases kbsrPoll_cases s with ⟨answer, l, hk⟩ | ⟨l, hk⟩ | hk <;> rw [hk] at h <;> cases h
    rfl
  · rw [memRead_plain s a ha] at h
    cases h

/-- A read writes no byte. -/
theorem memRead_writesLeft {s t : State} {a v : Word} (h : memRead a s = .done v t) :
    t.console.writesLeft = s.console.writesLeft := by
  by_cases ha : a = s.config.kbsrAddr
  · subst ha
    rw [memRead_kbsr] at h
    rcases kbsrPoll_cases s with ⟨answer, l, hk⟩ | ⟨l, hk⟩ | hk <;> rw [hk] at h <;> cases h
    rw [storeAnswer_console]
    rfl
  · rw [memRead_plain s a ha] at h
    cases h
    rfl

theorem awaitByte_progress {s t : State} {b : Byte} (l : List HostAnswer) (h : awaitByte s l = .done b t) :
    ∃ l', t = s.setPending l' ∧ (l'.length < l.length ∨ (l' = [] ∧ s.console.inputEnd = .endless b)) := by
  induction l with
  | nil =>
    unfold awaitByte at h
    split at h <;> cases h
    exact ⟨[], rfl, .inr ⟨rfl, by assumption⟩⟩
  | cons x l ih =>
    cases x with
    | byte c => cases h; exact ⟨l, rfl, .inl (by simp)⟩
    | notReady =>
      obtain ⟨l', h1, h2⟩ := ih h
      refine ⟨l', h1, ?_⟩
      rcases h2 with h2 | h2
      · exact .inl (by simp; omega)
      · exact .inr h2
    | failure => cases h

/-- Once no listed answer is left, every poll obtains this one. -/
def Repeats (answer : Option Byte) (s : State) : Prop :=
  match answer with
  | some b => s.console.inputEnd = .endless b
  | none => s.config.kbPolicy = .nonBlocking ∧ (s.console.inputEnd = .closed ∨ s.console.inputEnd = .silent)

/-- A poll that completes takes a listed answer, or there was none left and it obtains the one every later poll obtains. -/
theorem kbsrPoll_progress {s t : State} (h : kbsrPoll s = .done () t) :
    ∃ answer l, t = storeAnswer answer (s.setPending l) ∧
      (l.length < s.console.pending.length ∨ (l = [] ∧ Repeats answer s)) := by
  unfold kbsrPoll at h
  split at h
  · rename_i hk
    obtain ⟨answer, d, h1, h2⟩ := Result.bind_eq_done h
    cases h2
    unfold conPoll at h1
    split at h1
    · rename_i b rest hp
      cases h1
      exact ⟨_, rest, rfl, .inl (by simp [hp])⟩
    · rename_i rest hp
      cases h1
      exact ⟨_, rest, rfl, .inl (by simp [hp])⟩
    · cases h1
    · rename_i hp
      have hs : s.setPending [] = s := by
        unfold State.setPending
        rw [← hp]
      refine ⟨answer, [], ?_, .inr ⟨rfl, ?_⟩⟩
      · rw [hs]
        split at h1 <;> cases h1 <;> rfl
      · split at h1 <;> cases h1
        · exact ⟨hk, .inl (by assumption)⟩
        · exact ⟨hk, .inr (by assumption)⟩
        · assumption
  · obtain ⟨b, d, h1, h2⟩ := Result.bind_eq_done h
    obtain ⟨l, h3, h4⟩ := awaitByte_progress _ h1
    cases h2
    exact ⟨some b, l, by rw [h3], h4⟩

theorem conRead_done {s t : State} {b : Byte} (h : conRead s = .done b t) : HostEffects s t ∧ t.mem = s.mem := by
  rcases conRead_cases s with ⟨c, l, hk⟩ | ⟨l, hk⟩ | hk <;> rw [hk] at h <;> cases h
  exact ⟨hostEffects_setPending s l, rfl⟩

theorem conRead_failed {s t : State} (h : conRead s = .failed t) : HostEffects s t ∧ t.mem = s.mem := by
  rcases conRead_cases s with ⟨c, l, hk⟩ | ⟨l, hk⟩ | hk <;> rw [hk] at h <;> cases h
  exact ⟨hostEffects_setPending s l, rfl⟩

theorem conWrite_done {s t : State} {b : Byte} (h : conWrite b s = .done () t) : HostEffects s t ∧ t.mem = s.mem := by
  rcases conWrite_cases b s with ⟨left, hk⟩ | hk <;> rw [hk] at h <;> cases h
  exact ⟨hostEffects_accept s _ left, rfl⟩

theorem conWrite_failed {s t : State} {b : Byte} (h : conWrite b s = .failed t) : t = s := by
  rcases conWrite_cases b s with ⟨left, hk⟩ | hk <;> rw [hk] at h <;> cases h
  rfl

theorem conWriteAll_done {s t : State} {bs : List Byte} (h : conWriteAll bs s = .done () t) :
    HostEffects s t ∧ t.mem = s.mem := by
  rcases conWriteAll_cases bs s with ⟨left, hk⟩ | ⟨n, left, hk⟩ <;> rw [hk] at h <;> cases h
  exact ⟨hostEffects_accept s _ left, rfl⟩

theorem conWriteAll_failed {s t : State} {bs : List Byte} (h : conWriteAll bs s = .failed t) :
    HostEffects s t ∧ t.mem = s.mem := by
  rcases conWriteAll_cases bs s with ⟨left, hk⟩ | ⟨n, left, hk⟩ <;> rw [hk] at h <;> cases h
  exact ⟨hostEffects_accept s _ left, rfl⟩

/-! ### Operations on the host's side look at no register

A state with other registers, pc and COND goes through the console and the decoder in the same way. -/

/-- The state with its registers, pc and COND replaced. -/
def overlay (regs : Vector Word 8) (pc cond : Word) (s : State) : State := { s with regs := regs, pc := pc, cond := cond }

/-- A result with its state replaced. -/
def Result.mapState {α : Type} (f : State → State) : Result α → Result α
  | .done v s => .done v (f s)
  | .failed s => .failed (f s)
  | .stuck w => .stuck w

theorem Result.mapState_bind {α β : Type} (f : State → State) (r : Result α) (g h : α → State → Result β)
    (hg : ∀ v s, g v (f s) = (h v s).mapState f) : (r.mapState f).bind g = (r.bind h).mapState f := by
  cases r with
  | done v s => exact hg v s
  | failed s => rfl
  | stuck w => rfl

theorem conPoll_overlay (regs : Vector Word 8) (pc cond : Word) (s : State) :
    conPoll (overlay regs pc cond s) = (conPoll s).mapState (overlay regs pc cond) := by
  have hp : (overlay regs pc cond s).console = s.console := rfl
  unfold conPoll
  rw [hp]
  split <;> try rfl
  split <;> rfl

theorem awaitByte_overlay (regs : Vector Word 8) (pc cond : Word) (s : State) (l : List HostAnswer) :
    awaitByte (overlay regs pc cond s) l = (awaitByte s l).mapState (overlay regs pc cond) := by
  induction l with
  | nil =>
    have hp : (overlay regs pc cond s).console = s.console := rfl
    unfold awaitByte
    rw [hp]
    split <;> rfl
  | cons x l ih =>
    cases x with
    | byte b => rfl
    | notReady => exact ih
    | failure => rfl

theorem conRead_overlay (regs : Vector Word 8) (pc cond : Word) (s : State) :
    conRead (overlay regs pc cond s) = (conRead s).mapState (overlay regs pc cond) :=
  awaitByte_overlay regs pc cond s _

theorem conWrite_overlay (regs : Vector Word 8) (pc cond : Word) (b : Byte) (s : State) :
    conWrite b (overlay regs pc cond s) = (conWrite b s).mapState (overlay regs pc cond) := by
  have hp : (overlay regs pc cond s).console = s.console := rfl
  unfold conWrite
  rw [hp]
  split <;> rfl

theorem conWriteAll_overlay (regs : Vector Word 8) (pc cond : Word) (bytes : List Byte) (s : State) :
    conWriteAll bytes (overlay regs pc cond s) = (conWriteAll bytes s).mapState (overlay regs pc cond) := by
  have hp : (overlay regs pc cond s).console = s.console := rfl
  unfold conWriteAll
  rw [hp]
  split
  · rfl
  · split <;> rfl

theorem kbsrPoll_overlay (regs : Vector Word 8) (pc cond : Word) (s : State) :
    kbsrPoll (overlay regs pc cond s) = (kbsrPoll s).mapState (overlay regs pc cond) := by
  have hc : (overlay regs pc cond s).config = s.config := rfl
  unfold kbsrPoll
  rw [hc]
  split
  · rw [conPoll_overlay]
    exact Result.mapState_bind _ _ _ _ fun v _ => by cases v <;> rfl
  · rw [conRead_overlay]
    exact Result.mapState_bind _ _ _ _ fun _ _ => rfl

theorem memRead_overlay (regs : Vector Word 8) (pc cond : Word) (a : Word) (s : State) :
    memRead a (overlay regs pc cond s) = (memRead a s).mapState (overlay regs pc cond) := by
  have hc : (overlay regs pc cond s).config = s.config := rfl
  unfold memRead
  rw [hc]
  split
  · rw [kbsrPoll_overlay]
    exact Result.mapState_bind _ _ _ _ fun _ _ => rfl
  · rfl

/-- The TRAP link is such a replacement. -/
theorem trapLink_overlay (s : State) : trapLink s = overlay (trapLink s).regs s.pc s.cond s := rfl

/-! ### Placing a word -/

/-- The pc a word is placed at is one where a step is a plain fetch. -/
theorem placePc_plain (s : State) : placePc s ≠ s.config.haltPc ∧ placePc s ≠ s.config.kbsrAddr := by
  have hplain : ∀ a, plainFetch s.config a = true ↔ a ≠ s.config.haltPc ∧ a ≠ s.config.kbsrAddr := by
    intro a; simp [plainFetch]
  unfold placePc
  split
  · exact (hplain _).mp ‹_›
  · split
    · exact (hplain _).mp ‹_›
    · split
      · exact (hplain _).mp ‹_›
      · rename_i h1 h2
        rw [hplain] at h1 h2
        have h01 : Config.loadOrigin ≠ Config.loadOrigin + 1#16 := by decide
        have h02 : Config.loadOrigin ≠ Config.loadOrigin + 2#16 := by decide
        have h12 : Config.loadOrigin + 1#16 ≠ Config.loadOrigin + 2#16 := by decide
        constructor
        · intro h
          rw [← h] at h1 h2
          exact h01 ((not_and_not_right.mp h1 h02).trans (not_and_not_right.mp h2 h12).symm)
        · intro h
          rw [← h] at h1 h2
          have e1 : Config.loadOrigin = s.config.haltPc := by
            by_contra hc; exact h1 ⟨hc, h02⟩
          have e2 : Config.loadOrigin + 1#16 = s.config.haltPc := by
            by_contra hc; exact h2 ⟨hc, h12⟩
          exact h01 (e1.trans e2.symm)

/-! ### Ending an instruction -/

/-- What the end of an instruction can be: its own next state, the faulted state of ConsoleIOFailure, or no next state. -/
theorem finish_cases (i : Instr) (s : State) (r : Result Unit) :
    (∃ t, r = .done () t ∧ finish i s r = .next t) ∨
      (∃ t, r = .failed t ∧ finish i s r = .next (raise .consoleIOFailure i s t)) ∨
      ∃ f, r = .stuck f ∧ finish i s r = .fault f := by
  cases r with
  | done v t => exact .inl ⟨t, rfl, rfl⟩
  | failed t => exact .inr (.inl ⟨t, rfl, rfl⟩)
  | stuck f => exact .inr (.inr ⟨f, rfl, rfl⟩)

/-- A raised fault leaves what R164 says. -/
theorem raise_faultedFrom (k : ErrorKind) (i : Instr) (s d : State) :
    FaultedFrom k (encode i) s d (raise k i s d) :=
  ⟨⟨rfl, rfl, fun _ => rfl, rfl, rfl⟩, fun _ => rfl, rfl⟩

/-! ### The condition codes -/

theorem condAfter_reserved (v c : Word) : (condAfter v c).extractLsb' 3 13 = c.extractLsb' 3 13 := by
  ext i hi
  have h16 : 3 + i < 16 := by omega
  have hmask : (0xFFF8#16).getLsbD (3 + i) = true := by
    have : ∀ j : Fin 13, (0xFFF8#16).getLsbD (3 + j) = true := by decide
    exact this ⟨i, hi⟩
  simp [condAfter, BitVec.getElem_extractLsb', hmask, h16]

theorem condAfter_codes (v c : Word) : (condAfter v c).extractLsb' 0 3 = condFlag v := by
  ext i hi
  have hmask : (0xFFF8#16)[i] = false := by
    have : i = 0 ∨ i = 1 ∨ i = 2 := by omega
    rcases this with rfl | rfl | rfl <;> simp
  have h16 : i < 16 := by omega
  simp [condAfter, BitVec.getElem_extractLsb', hmask, hi, h16]

/-- setcc leaves COND as R27 says. -/
theorem setcc_condSetFrom (v : Word) (s : State) : CondSetFrom v s (setcc v s) := by
  refine ⟨condAfter_reserved v s.cond, ?_, ?_, ?_⟩
  · intro h; simp [condAfter_codes, condFlag, h]
  · intro h hb
    have hb' : v[15] = true := by simpa using hb
    simp [condAfter_codes, condFlag, h, hb']
  · intro h hb
    have hb' : v[15] = false := by simpa using hb
    simp [condAfter_codes, condFlag, h, hb']

end Sys2Proof.Machine
end

