-- ==== Sys2Proof/Laws/Scan.lean ====
section
/-! SUPPORT. The string scans of PUTS and PUTSP (spec/43_trap.md R134, R136): what they can change, that they look at no register, and that their
count never cuts short a scan that would end. -/

namespace Sys2Proof.Machine

/-! ### What a scan does with one word -/

/-- What the scans need of the part that writes a word's characters: whether the loop goes on depends on the word alone; a host
without a limit accepts everything; one with a limit has fewer bytes left after a word that goes on. -/
structure EmitLaws (emit : Word → State → Result Bool) (more : Word → Bool) : Prop where
  accepts : ∀ w s, s.console.writesLeft = none → ∃ bytes, emit w s = .done (more w) (s.accept bytes none)
  limited : ∀ w s n, s.console.writesLeft = some n →
    (∃ b bytes m, emit w s = .done b (s.accept bytes (some m)) ∧ (b = true → m < n)) ∨
      ∃ bytes m, emit w s = .failed (s.accept bytes (some m))
  overlay : ∀ regs pc cond w s, emit w (overlay regs pc cond s) = (emit w s).mapState (overlay regs pc cond)

theorem conWrite_unlimited (b : Byte) (s : State) (h : s.console.writesLeft = none) :
    conWrite b s = .done () (s.accept [b] none) := by
  simp [conWrite, h]

theorem conWrite_limited (b : Byte) (s : State) (n : Nat) (h : s.console.writesLeft = some n) :
    (∃ m, n = m + 1 ∧ conWrite b s = .done () (s.accept [b] (some m))) ∨ n = 0 ∧ conWrite b s = .failed s := by
  cases n with
  | zero => exact .inr ⟨rfl, by simp [conWrite, h]⟩
  | succ m => exact .inl ⟨m, rfl, by simp [conWrite, h]⟩

theorem accept_nothing (s : State) : s = s.accept [] s.console.writesLeft := by
  simp [State.accept]

theorem emitPuts_laws : EmitLaws emitPuts (fun w => decide (w ≠ 0x0000#16)) where
  accepts w s h := by
    by_cases hw : w = 0x0000#16
    · exact ⟨[], by simp [emitPuts, hw, ← h, ← accept_nothing]⟩
    · exact ⟨[lowByte w], by simp [emitPuts, hw, conWrite_unlimited _ s h]⟩
  limited w s n h := by
    by_cases hw : w = 0x0000#16
    · exact .inl ⟨false, [], n, by simp [emitPuts, hw, ← h, ← accept_nothing], by simp⟩
    · rcases conWrite_limited (lowByte w) s n h with ⟨m, hm, hc⟩ | ⟨_, hc⟩
      · exact .inl ⟨true, [lowByte w], m, by simp [emitPuts, hw, hc], fun _ => by omega⟩
      · exact .inr ⟨[], n, by simp [emitPuts, hw, hc, ← h, ← accept_nothing]⟩
  overlay regs pc cond w s := by
    unfold emitPuts
    split
    · rfl
    · rw [conWrite_overlay]
      exact Result.mapState_bind _ _ _ _ fun _ _ => rfl

theorem emitPutsp_laws : EmitLaws emitPutsp (fun w => decide (w ≠ 0x0000#16) && decide (highByte w ≠ 0x00#8)) where
  accepts w s h := by
    by_cases hw : w = 0x0000#16
    · exact ⟨[], by simp [emitPutsp, hw, ← h, ← accept_nothing]⟩
    · by_cases hh : highByte w = 0x00#8
      · exact ⟨[lowByte w], by simp [emitPutsp, hw, hh, conWrite_unlimited _ s h]⟩
      · have h2 : (s.accept [lowByte w] none).console.writesLeft = none := rfl
        exact ⟨[lowByte w] ++ [highByte w], by
          simp [emitPutsp, hw, hh, conWrite_unlimited _ s h, conWrite_unlimited _ _ h2, accept_accept]⟩
  limited w s n h := by
    by_cases hw : w = 0x0000#16
    · exact .inl ⟨false, [], n, by simp [emitPutsp, hw, ← h, ← accept_nothing], by simp⟩
    · rcases conWrite_limited (lowByte w) s n h with ⟨m, hm, hc⟩ | ⟨_, hc⟩
      · by_cases hh : highByte w = 0x00#8
        · exact .inl ⟨false, [lowByte w], m, by simp [emitPutsp, hw, hc, hh], by simp⟩
        · have h2 : (s.accept [lowByte w] (some m)).console.writesLeft = some m := rfl
          rcases conWrite_limited (highByte w) _ m h2 with ⟨l, hl, hd⟩ | ⟨_, hd⟩
          · exact .inl ⟨true, [lowByte w] ++ [highByte w], l, by simp [emitPutsp, hw, hc, hh, hd, accept_accept], fun _ => by omega⟩
          · exact .inr ⟨[lowByte w], m, by simp [emitPutsp, hw, hc, hh, hd]⟩
      · exact .inr ⟨[], n, by simp [emitPutsp, hw, hc, ← h, ← accept_nothing]⟩
  overlay regs pc cond w s := by
    unfold emitPutsp
    split
    · rfl
    · rw [conWrite_overlay]
      apply Result.mapState_bind
      intro _ e
      split
      · rfl
      · rw [conWrite_overlay]
        exact Result.mapState_bind _ _ _ _ fun _ _ => rfl

/-! ### What a scan can change, and that it looks at no register -/

theorem EmitLaws.effects {emit : Word → State → Result Bool} {more : Word → Bool} (L : EmitLaws emit more) {w : Word} {s : State} :
    (∃ b bytes left, emit w s = .done b (s.accept bytes left)) ∨ ∃ bytes left, emit w s = .failed (s.accept bytes left) := by
  cases h : s.console.writesLeft with
  | none =>
    obtain ⟨bytes, hb⟩ := L.accepts w s h
    exact .inl ⟨_, bytes, none, hb⟩
  | some n =>
    rcases L.limited w s n h with ⟨b, bytes, m, hb, _⟩ | ⟨bytes, m, hb⟩
    · exact .inl ⟨b, bytes, _, hb⟩
    · exact .inr ⟨bytes, _, hb⟩

/-- A scan changes nothing but what polls and writes do. -/
theorem scanString_effects {emit : Word → State → Result Bool} {more : Word → Bool} (L : EmitLaws emit more)
    (k : Nat) (a : Word) (s t : State)
    (h : scanString emit k a s = .done () t ∨ scanString emit k a s = .failed t) : HostEffects s t := by
  induction k generalizing a s with
  | zero => rcases h with h | h <;> cases h
  | succ k ih =>
    unfold scanString at h
    cases hr : memRead a s with
    | failed d =>
      rw [hr] at h
      rcases h with h | h <;> cases h
      exact (memRead_failed hr).1
    | stuck f =>
      rw [hr] at h
      rcases h with h | h <;> cases h
    | done w d =>
      rw [hr] at h
      have hd := (memRead_done hr).1
      simp only [Result.bind_done] at h
      rcases L.effects (w := w) (s := d) with ⟨b, bytes, left, he⟩ | ⟨bytes, left, he⟩
      · rw [he] at h
        have hd' := hd.trans (hostEffects_accept d bytes left)
        cases b with
        | false => rcases h with h | h <;> cases h; exact hd'
        | true => exact hd'.trans (ih _ _ h)
      · rw [he] at h
        rcases h with h | h <;> cases h
        exact hd.trans (hostEffects_accept d bytes left)

theorem scanString_overlay {emit : Word → State → Result Bool} {more : Word → Bool} (L : EmitLaws emit more)
    (regs : Vector Word 8) (pc cond : Word) (k : Nat) (a : Word) (s : State) :
    scanString emit k a (overlay regs pc cond s) = (scanString emit k a s).mapState (overlay regs pc cond) := by
  induction k generalizing a s with
  | zero => rfl
  | succ k ih =>
    unfold scanString
    rw [memRead_overlay]
    apply Result.mapState_bind
    intro w d
    rw [L.overlay]
    apply Result.mapState_bind
    intro b e
    cases b with
    | false => rfl
    | true => exact ih _ e

/-! ### The count is long enough -/

/-- A scan of this count has come to an end of its own. -/
def ScanEnds (emit : Word → State → Result Bool) (k : Nat) (a : Word) (s : State) : Prop :=
  scanString emit k a s ≠ .stuck .scanNeverEnds

/-- From one address on, as many steps as their difference lead to another. -/
theorem reaches_address (a b : Word) : a + BitVec.ofNat 16 (b - a).toNat = b := by
  rw [BitVec.ofNat_toNat, BitVec.setWidth_eq, BitVec.add_comm, BitVec.sub_add_cancel]

/-- And fewer do not. -/
theorem before_address (a b : Word) (i : Nat) (hi : i < (b - a).toNat) : a + BitVec.ofNat 16 i ≠ b := by
  intro heq
  rw [← heq, BitVec.add_comm, BitVec.add_sub_cancel, BitVec.toNat_ofNat] at hi
  exact absurd (Nat.mod_le i (2 ^ 16)) (by omega)

section
variable {emit : Word → State → Result Bool} {more : Word → Bool} (L : EmitLaws emit more)
include L

/-- Either the word read at `a` is the last, whatever the count, or the scan goes on at the next address. -/
theorem scan_step (a : Word) (s : State) :
    (∀ k, scanString emit (k + 1) a s = scanString emit 1 a s ∧ ScanEnds emit 1 a s) ∨
      ∃ w d e, memRead a s = .done w d ∧ emit w d = .done true e ∧
        ∀ k, scanString emit (k + 1) a s = scanString emit k (a + 1#16) e := by
  cases hr : memRead a s with
  | failed d => exact .inl fun k => ⟨by simp [scanString, hr], by simp [ScanEnds, scanString, hr]⟩
  | stuck f =>
    have := memRead_stuck hr
    exact .inl fun k => ⟨by simp [scanString, hr], by simp [ScanEnds, scanString, hr, this]⟩
  | done w d =>
    rcases L.effects (w := w) (s := d) with ⟨b, bytes, left, he⟩ | ⟨bytes, left, he⟩
    · cases b with
      | false => exact .inl fun k => ⟨by simp [scanString, hr, he], by simp [ScanEnds, scanString, hr, he]⟩
      | true => exact .inr ⟨w, d, _, rfl, he, fun k => by simp [scanString, hr, he]⟩
    · exact .inl fun k => ⟨by simp [scanString, hr, he], by simp [ScanEnds, scanString, hr, he]⟩

/-- Once a scan has ended, a longer count changes nothing. -/
theorem scan_longer {k j : Nat} {a : Word} {s : State} (h : ScanEnds emit k a s) (hj : k ≤ j) :
    scanString emit j a s = scanString emit k a s := by
  induction k generalizing j a s with
  | zero => exact absurd rfl h
  | succ k ih =>
    obtain ⟨j, rfl⟩ : ∃ i, j = i + 1 := ⟨j - 1, by omega⟩
    rcases scan_step L a s with h1 | ⟨w, d, e, _, _, h2⟩
    · rw [(h1 j).1, (h1 k).1]
    · rw [h2 j, h2 k]
      exact ih (by unfold ScanEnds at h ⊢; rwa [h2 k] at h) (by omega)

theorem ScanEnds.longer {k j : Nat} {a : Word} {s : State} (h : ScanEnds emit k a s) (hj : k ≤ j) : ScanEnds emit j a s := by
  unfold ScanEnds
  rw [scan_longer L h hj]
  exact h

/-- A host that accepts only `n` more bytes ends every scan within `n + 1` words. -/
theorem scan_ends_limited (n : Nat) (a : Word) (s : State) (h : s.console.writesLeft = some n) : ScanEnds emit (n + 1) a s := by
  induction n using Nat.strongRecOn generalizing a s with
  | ind n ih =>
    rcases scan_step L a s with h1 | ⟨w, d, e, hr, he, h2⟩
    · exact ScanEnds.longer L (h1 0).2 (by omega)
    · have hd : d.console.writesLeft = some n := by rw [memRead_writesLeft hr, h]
      rcases L.limited w d n hd with ⟨b, bytes, m, hb, hm⟩ | ⟨bytes, m, hb⟩
      · rw [he] at hb
        injection hb with h3 h4
        have hlt : m < n := hm h3.symm
        unfold ScanEnds
        rw [h2 n]
        exact ScanEnds.longer L (ih m hlt (a + 1#16) e (by rw [h4]; rfl)) (by omega)
      · rw [he] at hb
        cases hb

/-- Away from KBSR a scan sees the stored words: within `n` words it has ended, or all of them let it go on. -/
theorem scan_walk (n : Nat) (a : Word) (s : State) (h : s.console.writesLeft = none)
    (hk : ∀ i, i < n → a + BitVec.ofNat 16 i ≠ s.config.kbsrAddr) :
    ScanEnds emit n a s ∨
      ∃ bytes, ∀ k, scanString emit (n + k) a s = scanString emit k (a + BitVec.ofNat 16 n) (s.accept bytes none) := by
  induction n generalizing a s with
  | zero => exact .inr ⟨[], fun k => by rw [← h, ← accept_nothing]; simp⟩
  | succ n ih =>
    have hr : memRead a s = .done (s.word a) s := memRead_plain s a (by simpa using hk 0 (by omega))
    obtain ⟨bytes, he⟩ := L.accepts (s.word a) s h
    cases hm : more (s.word a) with
    | false =>
      rw [hm] at he
      exact .inl (ScanEnds.longer L (k := 1) (by simp [ScanEnds, scanString, hr, he]) (by omega))
    | true =>
      rw [hm] at he
      have hstep : ∀ k, scanString emit (k + 1) a s = scanString emit k (a + 1#16) (s.accept bytes none) := by
        intro k; simp [scanString, hr, he]
      have hnext : ∀ i, a + 1#16 + BitVec.ofNat 16 i = a + BitVec.ofNat 16 (i + 1) := by
        intro i; rw [Nat.add_comm i 1, BitVec.ofNat_add, BitVec.add_assoc]
      rcases ih (a + 1#16) (s.accept bytes none) rfl (fun i hi => by rw [hnext]; exact hk (i + 1) (by omega)) with h1 | ⟨bytes2, h2⟩
      · left
        unfold ScanEnds
        rw [hstep n]
        exact h1
      · refine .inr ⟨bytes ++ bytes2, fun k => ?_⟩
        rw [show n + 1 + k = (n + k) + 1 by omega, hstep, h2, hnext, accept_accept]

/-- No listed answer is left, and the memory is as the polls from here on leave it: reading changes no word. -/
structure Steady (answer : Option Byte) (s : State) : Prop where
  pending : s.console.pending = []
  repeats : Repeats answer s
  writesLeft : s.console.writesLeft = none
  fixed : ∀ c, (storeAnswer answer s).word c = s.word c

omit L in
theorem Steady.poll {answer : Option Byte} {s : State} (h : Steady answer s) : kbsrPoll s = .done () (storeAnswer answer s) := by
  have hs : s.setPending [] = s := by
    unfold State.setPending
    rw [← h.pending]
  have hr := h.repeats
  unfold kbsrPoll
  cases answer with
  | none =>
    obtain ⟨hk, he | he⟩ := hr <;> simp [hk, conPoll, h.pending, he]
  | some b =>
    have he : s.console.inputEnd = .endless b := hr
    split
    · simp [conPoll, h.pending, he]
    · simp [conRead, awaitByte, h.pending, he, hs]

omit L in
theorem steady_storeAnswer {answer : Option Byte} {s : State} (hp : s.console.pending = []) (hr : Repeats answer s)
    (hw : s.console.writesLeft = none) : Steady answer (storeAnswer answer s) where
  pending := by rw [storeAnswer_console, hp]
  repeats := by unfold Repeats at hr ⊢; rwa [storeAnswer_console, storeAnswer_config]
  writesLeft := by rw [storeAnswer_console, hw]
  fixed := storeAnswer_storeAnswer_word s answer

omit L in
theorem Steady.accept {answer : Option Byte} {s : State} (h : Steady answer s) (bytes : List Byte) : Steady answer (s.accept bytes none) :=
  ⟨h.pending, h.repeats, rfl, fun c => by
    have := h.fixed c
    cases answer <;> exact this⟩

omit L in
theorem Steady.read {answer : Option Byte} {s : State} (h : Steady answer s) (a : Word) :
    ∃ d, memRead a s = .done (s.word a) d ∧ Steady answer d ∧ ∀ c, d.word c = s.word c := by
  by_cases ha : a = s.config.kbsrAddr
  · refine ⟨storeAnswer answer s, ?_, steady_storeAnswer h.pending h.repeats h.writesLeft, h.fixed⟩
    subst ha
    rw [memRead_kbsr, h.poll, Result.bind_done, h.fixed]
  · exact ⟨s, memRead_plain s a ha, h, fun _ => rfl⟩

theorem steady_step {answer : Option Byte} {s : State} (h : Steady answer s) (a : Word) :
    (more (s.word a) = false ∧ ScanEnds emit 1 a s) ∨
      ∃ e, Steady answer e ∧ (∀ c, e.word c = s.word c) ∧ ∀ k, scanString emit (k + 1) a s = scanString emit k (a + 1#16) e := by
  obtain ⟨d, hr, hd, hw⟩ := h.read a
  obtain ⟨bytes, he⟩ := L.accepts (s.word a) d hd.writesLeft
  cases hm : more (s.word a) with
  | false =>
    rw [hm] at he
    exact .inl ⟨rfl, by simp [ScanEnds, scanString, hr, he]⟩
  | true =>
    rw [hm] at he
    exact .inr ⟨d.accept bytes none, hd.accept bytes, hw, fun k => by
      simp [scanString, hr, he]⟩

/-- In a steady state a scan that ends at all meets a last word. -/
theorem steady_last {answer : Option Byte} (k : Nat) (a : Word) (s : State) (h : Steady answer s) (he : ScanEnds emit k a s) :
    ∃ i, more (s.word (a + BitVec.ofNat 16 i)) = false := by
  induction k generalizing a s with
  | zero => exact absurd rfl he
  | succ k ih =>
    rcases steady_step L h a with ⟨hm, _⟩ | ⟨e, h1, hw, h2⟩
    · exact ⟨0, by simpa using hm⟩
    · obtain ⟨i, hi⟩ := ih (a + 1#16) e h1 (by unfold ScanEnds at he ⊢; rwa [h2 k] at he)
      refine ⟨i + 1, ?_⟩
      rw [Nat.add_comm i 1, BitVec.ofNat_add, ← BitVec.add_assoc, ← hw]
      exact hi

/-- And where a last word is, the scan has ended there. -/
theorem steady_ends_at {answer : Option Byte} (i : Nat) (a : Word) (s : State) (h : Steady answer s)
    (hm : more (s.word (a + BitVec.ofNat 16 i)) = false) : ScanEnds emit (i + 1) a s := by
  induction i generalizing a s with
  | zero =>
    obtain ⟨d, hr, hd, hw⟩ := h.read a
    obtain ⟨bytes, he⟩ := L.accepts (s.word a) d hd.writesLeft
    have hm' : more (s.word a) = false := by simpa using hm
    rw [hm'] at he
    simp [ScanEnds, scanString, hr, he]
  | succ i ih =>
    rcases steady_step L h a with ⟨_, h1⟩ | ⟨e, h1, hw, h2⟩
    · exact ScanEnds.longer L h1 (by omega)
    · unfold ScanEnds
      rw [h2 (i + 1)]
      apply ih _ e h1
      rw [hw, BitVec.add_assoc, ← BitVec.ofNat_add, Nat.add_comm 1 i]
      exact hm

/-- In a steady state one round of the addresses decides. -/
theorem steady_ends {answer : Option Byte} {k : Nat} {a : Word} {s : State} (h : Steady answer s) (he : ScanEnds emit k a s) :
    ScanEnds emit 65536 a s := by
  obtain ⟨i, hi⟩ := steady_last L k a s h he
  have hmod : BitVec.ofNat 16 i = BitVec.ofNat 16 (i % 65536) := by
    apply BitVec.eq_of_toNat_eq; simp
  rw [hmod] at hi
  exact ScanEnds.longer L (steady_ends_at L (i % 65536) a s h hi) (by omega)

/-- At KBSR a scan of a host without a limit ends, or goes on with fewer answers to come, or reaches a steady state. -/
theorem scan_visit (s : State) (h : s.console.writesLeft = none) :
    ScanEnds emit 1 s.config.kbsrAddr s ∨
      ∃ e, (∀ k, scanString emit (k + 1) s.config.kbsrAddr s = scanString emit k (s.config.kbsrAddr + 1#16) e) ∧
        e.console.writesLeft = none ∧
        (e.console.pending.length < s.console.pending.length ∨ ∃ answer, Steady answer e) := by
  rcases scan_step L s.config.kbsrAddr s with h1 | ⟨w, d, e, hr, he, h2⟩
  · exact .inl (h1 0).2
  · have hdw : d.console.writesLeft = none := by rw [memRead_writesLeft hr, h]
    obtain ⟨bytes, ha⟩ := L.accepts w d hdw
    rw [he] at ha
    injection ha with _ hed
    rw [memRead_kbsr] at hr
    obtain ⟨u, p, hp, hq⟩ := Result.bind_eq_done hr
    injection hq with _ hpd
    subst hpd
    obtain ⟨answer, l, rfl, hl⟩ := kbsrPoll_progress hp
    refine .inr ⟨e, h2, by rw [hed]; rfl, ?_⟩
    rcases hl with hl | ⟨rfl, hrep⟩
    · refine .inl ?_
      rw [hed, accept_console, storeAnswer_console]
      exact hl
    · refine .inr ⟨answer, ?_⟩
      rw [hed]
      exact (steady_storeAnswer (s := s.setPending []) rfl hrep h).accept bytes

/-- One round: up to KBSR, the visit there, and what follows. -/
theorem scan_ends_round (a : Word) (s : State) (k : Nat) (h : s.console.writesLeft = none) (he : ScanEnds emit k a s) {n : Nat}
    (hn : 131072 ≤ n)
    (hrest : ∀ e : State, e.console.writesLeft = none → e.console.pending.length < s.console.pending.length →
      ∀ b j, ScanEnds emit j b e → ScanEnds emit (n - 65536) b e) :
    ScanEnds emit n a s := by
  have hlt := (s.config.kbsrAddr - a).isLt
  rcases scan_walk L _ a s h (before_address a s.config.kbsrAddr) with h1 | ⟨bytes, h1⟩
  · exact ScanEnds.longer L h1 (by omega)
  · rw [reaches_address] at h1
    rcases scan_visit L (s.accept bytes none) rfl with h2 | ⟨e, h2, hw, h3⟩
    · have : ScanEnds emit ((s.config.kbsrAddr - a).toNat + 1) a s := by
        unfold ScanEnds
        rw [h1 1]
        exact h2
      exact ScanEnds.longer L this (by omega)
    · simp only [accept_config] at h2
      have hgo : ∀ j, ScanEnds emit ((s.config.kbsrAddr - a).toNat + (j + 1)) a s ↔ ScanEnds emit j (s.config.kbsrAddr + 1#16) e := by
        intro j
        unfold ScanEnds
        rw [h1 (j + 1), h2 j]
      have hk : ScanEnds emit k (s.config.kbsrAddr + 1#16) e := (hgo k).mp (ScanEnds.longer L he (by omega))
      rcases h3 with h3 | ⟨answer, h3⟩
      · exact ScanEnds.longer L ((hgo _).mpr (hrest e hw h3 _ k hk)) (by omega)
      · exact ScanEnds.longer L ((hgo _).mpr (steady_ends L h3 hk)) (by omega)

/-- A scan of a host without a limit that ends at all ends within a round for each answer to come and two more. -/
theorem scan_ends_unlimited (n : Nat) (a : Word) (s : State) (k : Nat) (hn : s.console.pending.length ≤ n)
    (h : s.console.writesLeft = none) (he : ScanEnds emit k a s) : ScanEnds emit (65536 * (n + 2)) a s := by
  induction n generalizing a s k with
  | zero => exact scan_ends_round L a s k h he (by omega) (fun e _ hlt _ => by omega)
  | succ n ih =>
    refine scan_ends_round L a s k h he (by omega) (fun e hw hlt b j hj => ?_)
    exact ScanEnds.longer L (ih _ e j (by omega) hw hj) (by omega)

/-- The count the services use is long enough: a scan that ends under any count ends under it, in the same way. -/
theorem scanString_fuel {k : Nat} {a : Word} {s : State} (he : ScanEnds emit k a s) :
    scanString emit (scanFuel s) a s = scanString emit k a s := by
  have hf : ScanEnds emit (scanFuel s) a s := by
    cases h : s.console.writesLeft with
    | none => exact ScanEnds.longer L (scan_ends_unlimited L _ a s k (Nat.le_refl _) h he) (by simp [scanFuel, h])
    | some n => exact ScanEnds.longer L (scan_ends_limited L n a s h) (by simp [scanFuel, h])
  rcases Nat.le_total k (scanFuel s) with hle | hle
  · exact scan_longer L he hle
  · exact (scan_longer L hf hle).symm

end

end Sys2Proof.Machine
end

