-- ==== Sys2Proof/Laws/Loops.lean ====
section
/-! SUPPORT. The scan of PUTS and PUTSP is the loop the spec writes: it comes to a result exactly when the loop does, and to the same one. -/

namespace Sys2Proof.Machine

/-- What the loop of PUTS comes to is what a long enough scan comes to. -/
theorem PutsLoop.scan {a : Word} {s : State} {r : Result Unit} (h : PutsLoop a s r) :
    ∃ k, scanString emitPuts k a s = r ∧ ScanEnds emitPuts k a s := by
  induction h with
  | readFails hr => exact ⟨1, by simp [scanString, hr], by simp [ScanEnds, scanString, hr]⟩
  | readWaits hr =>
    cases memRead_stuck hr
    exact ⟨1, by simp [scanString, hr], by simp [ScanEnds, scanString, hr]⟩
  | terminator hr => exact ⟨1, by simp [scanString, hr, emitPuts], by simp [ScanEnds, scanString, hr, emitPuts]⟩
  | writeFails hr hz hw =>
    exact ⟨1, by simp [scanString, hr, emitPuts, hz, hw], by simp [ScanEnds, scanString, hr, emitPuts, hz, hw]⟩
  | again hr hz hw _ ih =>
    obtain ⟨k, hk, he⟩ := ih
    refine ⟨k + 1, by simp [scanString, hr, emitPuts, hz, hw, hk], ?_⟩
    unfold ScanEnds at he ⊢
    simpa [scanString, hr, emitPuts, hz, hw] using he

/-- A scan of PUTS that ends comes to what the loop comes to. -/
theorem putsLoop_of_scan (k : Nat) (a : Word) (s : State) (he : ScanEnds emitPuts k a s) :
    PutsLoop a s (scanString emitPuts k a s) := by
  induction k generalizing a s with
  | zero => exact absurd rfl he
  | succ k ih =>
    unfold ScanEnds at he
    unfold scanString at he ⊢
    cases hr : memRead a s with
    | failed d => exact .readFails hr
    | stuck f => exact .readWaits hr
    | done w d =>
      by_cases hz : w = 0x0000#16
      · subst hz
        exact .terminator hr
      · rw [hr] at he
        rcases conWrite_cases (lowByte w) d with ⟨left, hw⟩ | hw
        · simp only [Result.bind, emitPuts, hz, hw, if_false, if_true] at he ⊢
          exact .again hr hz hw (ih _ _ he)
        · simp only [Result.bind, emitPuts, hz, hw, if_false]
          exact .writeFails hr hz hw

/-- What the loop of PUTSP comes to is what a long enough scan comes to. -/
theorem PutspLoop.scan {a : Word} {s : State} {r : Result Unit} (h : PutspLoop a s r) :
    ∃ k, scanString emitPutsp k a s = r ∧ ScanEnds emitPutsp k a s := by
  induction h with
  | readFails hr => exact ⟨1, by simp [scanString, hr], by simp [ScanEnds, scanString, hr]⟩
  | readWaits hr =>
    cases memRead_stuck hr
    exact ⟨1, by simp [scanString, hr], by simp [ScanEnds, scanString, hr]⟩
  | zeroWord hr => exact ⟨1, by simp [scanString, hr, emitPutsp], by simp [ScanEnds, scanString, hr, emitPutsp]⟩
  | lowFails hr hz hw =>
    exact ⟨1, by simp [scanString, hr, emitPutsp, hz, hw], by simp [ScanEnds, scanString, hr, emitPutsp, hz, hw]⟩
  | zeroHigh hr hz hw hh =>
    exact ⟨1, by simp [scanString, hr, emitPutsp, hz, hw, hh], by simp [ScanEnds, scanString, hr, emitPutsp, hz, hw, hh]⟩
  | highFails hr hz hw hh hv =>
    exact ⟨1, by simp [scanString, hr, emitPutsp, hz, hw, hh, hv], by simp [ScanEnds, scanString, hr, emitPutsp, hz, hw, hh, hv]⟩
  | again hr hz hw hh hv _ ih =>
    obtain ⟨k, hk, he⟩ := ih
    refine ⟨k + 1, by simp [scanString, hr, emitPutsp, hz, hw, hh, hv, hk], ?_⟩
    unfold ScanEnds at he ⊢
    simpa [scanString, hr, emitPutsp, hz, hw, hh, hv] using he

/-- A scan of PUTSP that ends comes to what the loop comes to. -/
theorem putspLoop_of_scan (k : Nat) (a : Word) (s : State) (he : ScanEnds emitPutsp k a s) :
    PutspLoop a s (scanString emitPutsp k a s) := by
  induction k generalizing a s with
  | zero => exact absurd rfl he
  | succ k ih =>
    unfold ScanEnds at he
    unfold scanString at he ⊢
    cases hr : memRead a s with
    | failed d => exact .readFails hr
    | stuck f => exact .readWaits hr
    | done w d =>
      by_cases hz : w = 0x0000#16
      · subst hz
        exact .zeroWord hr
      · rw [hr] at he
        rcases conWrite_cases (lowByte w) d with ⟨left, hw⟩ | hw
        · by_cases hh : highByte w = 0x00#8
          · simp only [Result.bind, emitPutsp, hz, hw, hh, if_false, if_true]
            exact .zeroHigh hr hz hw hh
          · rcases conWrite_cases (highByte w) (d.accept [lowByte w] left) with ⟨more, hv⟩ | hv
            · simp only [Result.bind, emitPutsp, hz, hw, hh, hv, if_false, if_true] at he ⊢
              exact .again hr hz hw hh hv (ih _ _ he)
            · simp only [Result.bind, emitPutsp, hz, hw, hh, hv, if_false]
              exact .highFails hr hz hw hh hv
        · simp only [Result.bind, emitPutsp, hz, hw, if_false]
          exact .lowFails hr hz hw

/-- At the addresses and values of the spec, a scan of PUTSP ends within three words from KBSR on: the poll answers "not ready", which is a zero word, or
leaves a byte in KBDR, whose word has a zero high byte. -/
theorem putsp_ends_from_kbsr (s : State) (hv : SpecValues s.config) (h : s.console.writesLeft = none) :
    ScanEnds emitPutsp 3 s.config.kbsrAddr s := by
  rcases scan_step emitPutsp_laws s.config.kbsrAddr s with h1 | ⟨w, d, e, hr, he, h2⟩
  · exact ScanEnds.longer emitPutsp_laws (h1 0).2 (by omega)
  · have hdw : d.console.writesLeft = none := by rw [memRead_writesLeft hr, h]
    obtain ⟨bytes, ha⟩ := emitPutsp_laws.accepts w d hdw
    rw [he] at ha
    injection ha with hmore hed
    rcases kbsrPoll_cases s with ⟨answer, l, hp⟩ | ⟨l, hp⟩ | hp <;> rw [memRead_kbsr, hp] at hr <;> cases hr
    cases answer with
    | none =>
      have hz : (storeAnswer none (s.setPending l)).word s.config.kbsrAddr = 0x0000#16 :=
        (clearKey_kbsr (s.setPending l)).trans hv.kbsrNotReady
      simp [hz] at hmore
    | some b =>
      have hc : e.config = s.config := by rw [hed]; rfl
      have hew : e.console.writesLeft = none := by rw [hed]; rfl
      have hkey : e.word s.config.kbdrAddr = zext b := by
        rw [hed, accept_word]
        exact storeKey_kbdr (s.setPending l) b (by simp [hv.kbdrAddr, hv.kbsrAddr])
      have hone : ∀ i, i < 1 → s.config.kbsrAddr + 1#16 + BitVec.ofNat 16 i ≠ e.config.kbsrAddr := by
        intro i hi
        have : i = 0 := by omega
        subst this
        rw [hc, hv.kbsrAddr]
        decide
      rcases scan_walk emitPutsp_laws 1 (s.config.kbsrAddr + 1#16) e hew hone with h3 | ⟨more, h3⟩
      · unfold ScanEnds
        rw [h2 2]
        exact ScanEnds.longer emitPutsp_laws h3 (by omega)
      · have hnext : s.config.kbsrAddr + 1#16 + BitVec.ofNat 16 1 = s.config.kbdrAddr := by
          rw [hv.kbsrAddr, hv.kbdrAddr]
          decide
        have hne : s.config.kbdrAddr ≠ (e.accept more none).config.kbsrAddr := by
          rw [accept_config, hc, hv.kbsrAddr, hv.kbdrAddr]
          decide
        have hr2 : memRead s.config.kbdrAddr (e.accept more none) = .done (zext b) (e.accept more none) := by
          rw [memRead_plain _ _ hne, accept_word, hkey]
        have hz : highByte (zext b) = 0x00#8 := by
          ext i hi
          simp [highByte, zext]
        unfold ScanEnds
        rw [h2 2, h3 1, hnext]
        unfold scanString
        rw [hr2]
        by_cases hw : zext b = 0x0000#16
        · simp [emitPutsp, hw]
        · simp [emitPutsp, hw, hz, conWrite]

/-- At the addresses and values of the spec, every scan of PUTSP ends: it comes to KBSR, if nothing ends it before. -/
theorem putsp_scan_ends (a : Word) (s : State) (hv : SpecValues s.config) : ∃ k, ScanEnds emitPutsp k a s := by
  cases h : s.console.writesLeft with
  | some n => exact ⟨n + 1, scan_ends_limited emitPutsp_laws n a s h⟩
  | none =>
    rcases scan_walk emitPutsp_laws _ a s h (before_address a s.config.kbsrAddr) with h1 | ⟨bytes, h2⟩
    · exact ⟨_, h1⟩
    · refine ⟨(s.config.kbsrAddr - a).toNat + 3, ?_⟩
      unfold ScanEnds
      rw [h2 3, reaches_address]
      exact putsp_ends_from_kbsr (s.accept bytes none) hv rfl

/-- The scan PUTS makes ends in what the loop ends in, or runs on where the loop never ends. -/
theorem scan_puts (a : Word) (s : State) :
    (∀ r, PutsLoop a s r → scanString emitPuts (scanFuel s) a s = r) ∧
    ((¬ ∃ r, PutsLoop a s r) → scanString emitPuts (scanFuel s) a s = .stuck .scanNeverEnds) := by
  constructor
  · intro r h
    obtain ⟨k, hk, he⟩ := h.scan
    rw [scanString_fuel emitPuts_laws he, hk]
  · intro h
    by_contra hc
    exact h ⟨_, putsLoop_of_scan _ a s hc⟩

/-- The same of PUTSP; and at the addresses and values of the spec its loop always comes to a result. -/
theorem scan_putsp (a : Word) (s : State) :
    (∀ r, PutspLoop a s r → scanString emitPutsp (scanFuel s) a s = r) ∧
    ((¬ ∃ r, PutspLoop a s r) → scanString emitPutsp (scanFuel s) a s = .stuck .scanNeverEnds) ∧
    (SpecValues s.config → ∃ r, PutspLoop a s r) := by
  refine ⟨?_, ?_, ?_⟩
  · intro r h
    obtain ⟨k, hk, he⟩ := h.scan
    rw [scanString_fuel emitPutsp_laws he, hk]
  · intro h
    by_contra hc
    exact h ⟨_, putspLoop_of_scan _ a s hc⟩
  · intro hv
    obtain ⟨k, he⟩ := putsp_scan_ends a s hv
    exact ⟨_, putspLoop_of_scan k a s he⟩

end Sys2Proof.Machine
end

