-- ==== Sys2Proof/Laws/PerInstr.lean ====
section
/-! SUPPORT. Statements made instruction by instruction: `Opcode`, that the word of every instruction carries its row's opcode (spec/30_encoding.md R72, R73). -/

namespace Sys2Proof.Laws.Opcode

open Sys2Proof

/-- The opcode R73 gives an instruction. -/
def number : Instr → BitVec 4
  | .addReg _ _ _ _ => 0x1#4
  | .addImm _ _ _ => 0x1#4
  | .andReg _ _ _ _ => 0x5#4
  | .andImm _ _ _ => 0x5#4
  | .not _ _ _ => 0x9#4
  | .ld _ _ => 0x2#4
  | .ldi _ _ => 0xA#4
  | .ldr _ _ _ => 0x6#4
  | .lea _ _ => 0xE#4
  | .st _ _ => 0x3#4
  | .sti _ _ => 0xB#4
  | .str _ _ _ => 0x7#4
  | .br _ _ => 0x0#4
  | .jmp _ _ _ => 0xC#4
  | .jsr _ => 0x4#4
  | .jsrr _ _ _ => 0x4#4
  | .trapGetc _ => 0xF#4
  | .trapOut _ => 0xF#4
  | .trapPuts _ => 0xF#4
  | .trapIn _ => 0xF#4
  | .trapPutsp _ => 0xF#4
  | .trapHalt _ => 0xF#4
  | .trapUnknown _ _ => 0xF#4
  | .op8 _ => 0x8#4
  | .reserved _ => 0xD#4

/-- The instruction's word has the instruction's opcode in bits 15:12. -/
def Statement (i : Instr) : Prop := opcode (encode i) = number i

theorem addReg (dr : Reg) (sr1 : Reg) (ign : BitVec 2) (sr2 : Reg) : Statement (.addReg dr sr1 ign sr2) := by
  simp only [Statement, number, encode, opcode, field, BitVec.extractLsb'_append_eq_ite]
  simp

theorem addImm (dr : Reg) (sr1 : Reg) (imm5 : BitVec 5) : Statement (.addImm dr sr1 imm5) := by
  simp only [Statement, number, encode, opcode, field, BitVec.extractLsb'_append_eq_ite]
  simp

theorem andReg (dr : Reg) (sr1 : Reg) (ign : BitVec 2) (sr2 : Reg) : Statement (.andReg dr sr1 ign sr2) := by
  simp only [Statement, number, encode, opcode, field, BitVec.extractLsb'_append_eq_ite]
  simp

theorem andImm (dr : Reg) (sr1 : Reg) (imm5 : BitVec 5) : Statement (.andImm dr sr1 imm5) := by
  simp only [Statement, number, encode, opcode, field, BitVec.extractLsb'_append_eq_ite]
  simp

theorem not (dr : Reg) (sr : Reg) (ign : BitVec 6) : Statement (.not dr sr ign) := by
  simp only [Statement, number, encode, opcode, field, BitVec.extractLsb'_append_eq_ite]
  simp

theorem ld (dr : Reg) (off9 : BitVec 9) : Statement (.ld dr off9) := by
  simp only [Statement, number, encode, opcode, field, BitVec.extractLsb'_append_eq_ite]
  simp

theorem ldi (dr : Reg) (off9 : BitVec 9) : Statement (.ldi dr off9) := by
  simp only [Statement, number, encode, opcode, field, BitVec.extractLsb'_append_eq_ite]
  simp

theorem ldr (dr : Reg) (baseR : Reg) (off6 : BitVec 6) : Statement (.ldr dr baseR off6) := by
  simp only [Statement, number, encode, opcode, field, BitVec.extractLsb'_append_eq_ite]
  simp

theorem lea (dr : Reg) (off9 : BitVec 9) : Statement (.lea dr off9) := by
  simp only [Statement, number, encode, opcode, field, BitVec.extractLsb'_append_eq_ite]
  simp

theorem st (sr : Reg) (off9 : BitVec 9) : Statement (.st sr off9) := by
  simp only [Statement, number, encode, opcode, field, BitVec.extractLsb'_append_eq_ite]
  simp

theorem sti (sr : Reg) (off9 : BitVec 9) : Statement (.sti sr off9) := by
  simp only [Statement, number, encode, opcode, field, BitVec.extractLsb'_append_eq_ite]
  simp

theorem str (sr : Reg) (baseR : Reg) (off6 : BitVec 6) : Statement (.str sr baseR off6) := by
  simp only [Statement, number, encode, opcode, field, BitVec.extractLsb'_append_eq_ite]
  simp

theorem br (nzp : BitVec 3) (off9 : BitVec 9) : Statement (.br nzp off9) := by
  simp only [Statement, number, encode, opcode, field, BitVec.extractLsb'_append_eq_ite]
  simp

theorem jmp (ignHi : BitVec 3) (baseR : Reg) (ignLo : BitVec 6) : Statement (.jmp ignHi baseR ignLo) := by
  simp only [Statement, number, encode, opcode, field, BitVec.extractLsb'_append_eq_ite]
  simp

theorem jsr (off11 : BitVec 11) : Statement (.jsr off11) := by
  simp only [Statement, number, encode, opcode, field, BitVec.extractLsb'_append_eq_ite]
  simp

theorem jsrr (ignHi : BitVec 2) (baseR : Reg) (ignLo : BitVec 6) : Statement (.jsrr ignHi baseR ignLo) := by
  simp only [Statement, number, encode, opcode, field, BitVec.extractLsb'_append_eq_ite]
  simp

theorem trapGetc (ign : BitVec 4) : Statement (.trapGetc ign) := by
  simp only [Statement, number, encode, opcode, field, BitVec.extractLsb'_append_eq_ite]
  simp

theorem trapOut (ign : BitVec 4) : Statement (.trapOut ign) := by
  simp only [Statement, number, encode, opcode, field, BitVec.extractLsb'_append_eq_ite]
  simp

theorem trapPuts (ign : BitVec 4) : Statement (.trapPuts ign) := by
  simp only [Statement, number, encode, opcode, field, BitVec.extractLsb'_append_eq_ite]
  simp

theorem trapIn (ign : BitVec 4) : Statement (.trapIn ign) := by
  simp only [Statement, number, encode, opcode, field, BitVec.extractLsb'_append_eq_ite]
  simp

theorem trapPutsp (ign : BitVec 4) : Statement (.trapPutsp ign) := by
  simp only [Statement, number, encode, opcode, field, BitVec.extractLsb'_append_eq_ite]
  simp

theorem trapHalt (ign : BitVec 4) : Statement (.trapHalt ign) := by
  simp only [Statement, number, encode, opcode, field, BitVec.extractLsb'_append_eq_ite]
  simp

theorem trapUnknown (ign : BitVec 4) (vec8 : BitVec 8) : Statement (.trapUnknown ign vec8) := by
  simp only [Statement, number, encode, opcode, field, BitVec.extractLsb'_append_eq_ite]
  simp

theorem op8 (ign : BitVec 12) : Statement (.op8 ign) := by
  simp only [Statement, number, encode, opcode, field, BitVec.extractLsb'_append_eq_ite]
  simp

theorem reserved (ign : BitVec 12) : Statement (.reserved ign) := by
  simp only [Statement, number, encode, opcode, field, BitVec.extractLsb'_append_eq_ite]
  simp

end Sys2Proof.Laws.Opcode
end

