-- ==== Sys2Proof/Tests/Slice0.lean ====
section
/-! SUPPORT. The model's own tests: what the checks refuse, words decoded as the spec writes them, single steps against the vectors of spec/95_test_vectors.md
(each named by its number there), and for every statement with hypotheses a state that meets them. -/

namespace Sys2Proof.Tests

open Sys2Proof Sys2Proof.Machine

/-! ## Ill-formed terms -/

/-- A generic TRAP whose vector has a service (R85). -/
theorem test_wf_refuses_service_vectors :
    (Instr.trapUnknown 0#4 0x20#8).wf = false ∧ (Instr.trapUnknown 0#4 0x21#8).wf = false ∧ (Instr.trapUnknown 0#4 0x22#8).wf = false ∧
    (Instr.trapUnknown 0#4 0x23#8).wf = false ∧ (Instr.trapUnknown 0#4 0x24#8).wf = false ∧ (Instr.trapUnknown 0xF#4 0x25#8).wf = false := by
  decide

theorem test_wf_takes_the_other_vectors :
    (Instr.trapUnknown 0#4 0x1F#8).wf = true ∧ (Instr.trapUnknown 0#4 0x26#8).wf = true ∧ (Instr.trapHalt 0xF#4).wf = true := by
  decide

/-! ## Words written out from R73 and R75 -/

theorem test_decode_operate :
    decode 0b0001_011_011_0_00_011#16 = .addReg 3#3 3#3 0#2 3#3 ∧ decode 0b0001_001_000_0_11_010#16 = .addReg 1#3 0#3 3#2 2#3 ∧
    decode 0b0001_001_001_1_11111#16 = .addImm 1#3 1#3 0x1F#5 ∧ decode 0b0101_011_001_0_00_010#16 = .andReg 3#3 1#3 0#2 2#3 ∧
    decode 0b0101_001_001_1_10000#16 = .andImm 1#3 1#3 0x10#5 ∧ decode 0b1001_010_010_111111#16 = .not 2#3 2#3 0x3F#6 := by
  decide

theorem test_decode_data_move :
    decode 0b0010_101_100000000#16 = .ld 5#3 0x100#9 ∧ decode 0b1010_011_000001000#16 = .ldi 3#3 8#9 ∧
    decode 0b0110_100_110_011111#16 = .ldr 4#3 6#3 31#6 ∧ decode 0b1110_001_000001001#16 = .lea 1#3 9#9 ∧
    decode 0b0011_001_000000000#16 = .st 1#3 0#9 ∧ decode 0b1011_000_000001001#16 = .sti 0#3 9#9 ∧
    decode 0b0111_001_001_100000#16 = .str 1#3 1#3 0x20#6 := by
  decide

theorem test_decode_control :
    decode 0b0000_001_111111101#16 = .br 1#3 0x1FD#9 ∧ decode 0b1100_000_111_000000#16 = .jmp 0#3 7#3 0#6 ∧
    decode 0b1100_111_010_111111#16 = .jmp 7#3 2#3 0x3F#6 ∧ decode 0b0100_1_10000000000#16 = .jsr 0x400#11 ∧
    decode 0b0100_0_00_011_000000#16 = .jsrr 0#2 3#3 0#6 ∧ decode 0b0100_0_11_111_000000#16 = .jsrr 3#2 7#3 0#6 := by
  decide

theorem test_decode_trap :
    decode 0b1111_0000_00100000#16 = .trapGetc 0#4 ∧ decode 0b1111_0000_00100001#16 = .trapOut 0#4 ∧
    decode 0b1111_0000_00100010#16 = .trapPuts 0#4 ∧ decode 0b1111_0000_00100011#16 = .trapIn 0#4 ∧
    decode 0b1111_0000_00100100#16 = .trapPutsp 0#4 ∧ decode 0b1111_1111_00100101#16 = .trapHalt 0xF#4 ∧
    decode 0b1111_0000_00100110#16 = .trapUnknown 0#4 0x26#8 ∧ decode 0b1111_0000_00011111#16 = .trapUnknown 0#4 0x1F#8 := by
  decide

theorem test_decode_unexecutable :
    decode 0b1101_111111111111#16 = .reserved 0xFFF#12 ∧ decode 0b1000_000000000001#16 = .op8 1#12 := by
  decide

/-- The host's numbering of a word's bits is the word itself (R71); a number beyond one word is none. -/
theorem test_decodeTableWord :
    decodeTableWord 16 0x1202 = some (.addReg 1#3 0#3 0#2 2#3) ∧ decodeTableWord 8 0x25 = some (.br 0#3 0x25#9) ∧
    decodeTableWord 16 0x10000 = none ∧ decodeTableWord 32 0x1202 = none := by
  decide

/-! ## Single steps -/

/-- A machine in the start state of spec/95_test_vectors.md, the word `w` at `pc`; the OPEN parameters are false and empty. -/
def start (pc w : Word) : State where
  regs := Config.params.regReset
  pc := pc
  cond := Config.params.condReset
  mem := Memory.write [] pc.toNat w
  status := .running
  console := Console.reset
  config :=
    { Config.params with trapLinksR7 := false, trapSetsCc := false, inPrompt := [], inEcho := false, haltBanner := [] }

/-- The machine with the host's answers to come. -/
def withInput (answers : List HostAnswer) (inputEnd : InputEnd) (s : State) : State :=
  { s with console := { s.console with pending := answers, inputEnd := inputEnd } }

/-- The machine whose host accepts so many bytes. -/
def withRoom (n : Nat) (s : State) : State := { s with console := { s.console with writesLeft := some n } }

/-- The machine with other values of the OPEN parameters and another policy. -/
def withConfig (links setsCc echo : Bool) (prompt banner : List Byte) (policy : Config.KbPolicy) (s : State) : State :=
  { s with config :=
      { s.config with
        trapLinksR7 := links, trapSetsCc := setsCc, inPrompt := prompt, inEcho := echo, haltBanner := banner, kbPolicy := policy } }

/-- Parameters other than the spec's: the run ends at 0x3005, and the keyboard cells stand at 0x4000 and 0x4001 with other values. -/
def otherParams : Config.Params :=
  { (start 0#16 0#16).config with
    haltPc := 0x3005#16, kbsrAddr := 0x4000#16, kbdrAddr := 0x4001#16, kbsrReady := 0x0007#16, kbsrNotReady := 0x0101#16,
    regReset := Vector.replicate 8 0x1234#16, condReset := 0x0004#16, memReset := [(0x3000, 0x0FFF#16), (0x5000, 0x5678#16)] }

/-- The step answers a next state with this property. -/
def steps (s : State) (p : State → Bool) : Bool :=
  match step s with
  | .next t => p t
  | .fault _ => false
  | .refused _ => false

/-- The step answers a running state with this pc. -/
def goesTo (s : State) (pc : Word) (p : State → Bool) : Bool := steps s fun t => p t && t.pc == pc && t.status == .running

/-- The step answers the faulted state of this record, registers, COND and pc as before. -/
def faults (s : State) (kind : ErrorKind) (faultPc word : Word) : Bool :=
  steps s fun t => t.status == .faulted ⟨kind, faultPc, word⟩ && t.regs == s.regs && t.cond == s.cond && t.pc == s.pc

/-- The step answers no next state, for this reason. -/
def stops (s : State) (f : Fault) : Bool :=
  match step s with
  | .next _ => false
  | .fault g => f == g
  | .refused _ => false

def cc (s : State) (r : Reg) (v c : Word) : Bool := s.reg r == v && s.cond == c

/-! ### Operate -/

/-- O1, S5. -/
theorem test_add_register : goesTo (((start 0x3000#16 0x1202#16).setReg 0#3 0x000A#16).setReg 2#3 0xFFFB#16) 0x3001#16
    (fun t => cc t 1#3 0x0005#16 0x0001#16 && t.reg 0#3 == 0x000A#16 && t.reg 2#3 == 0xFFFB#16) = true := by decide

/-- O2: the source is the destination, and the sum overflows. -/
theorem test_add_register_doubles : goesTo ((start 0x3000#16 0x16C3#16).setReg 3#3 0x7FFF#16) 0x3001#16
    (fun t => cc t 3#3 0xFFFE#16 0x0004#16) = true := by decide

/-- O3. -/
theorem test_add_immediate_wraps : goesTo ((start 0x3000#16 0x1021#16).setReg 0#3 0xFFFF#16) 0x3001#16
    (fun t => cc t 0#3 0x0000#16 0x0002#16) = true := by decide

/-- O4. -/
theorem test_add_immediate_negative : goesTo ((start 0x3000#16 0x1030#16).setReg 0#3 0x0010#16) 0x3001#16
    (fun t => cc t 0#3 0x0000#16 0x0002#16) = true := by decide

/-- O9. -/
theorem test_and_register : goesTo (((start 0x3000#16 0x5642#16).setReg 1#3 0x0F0F#16).setReg 2#3 0x00FF#16) 0x3001#16
    (fun t => cc t 3#3 0x000F#16 0x0001#16) = true := by decide

/-- O12. -/
theorem test_and_immediate : goesTo ((start 0x3000#16 0x5270#16).setReg 1#3 0x1234#16) 0x3001#16
    (fun t => cc t 1#3 0x1230#16 0x0001#16) = true := by decide

/-- O11. -/
theorem test_and_immediate_sign : goesTo ((start 0x3000#16 0x527F#16).setReg 1#3 0x8001#16) 0x3001#16
    (fun t => cc t 1#3 0x8001#16 0x0004#16) = true := by decide

/-- O14. -/
theorem test_not : goesTo ((start 0x3000#16 0x94BF#16).setReg 2#3 0x0007#16) 0x3001#16
    (fun t => cc t 2#3 0xFFF8#16 0x0004#16) = true := by decide

/-- O16: the ignored bits are zero. -/
theorem test_not_ignored_bits : goesTo ((start 0x3000#16 0x9040#16).setReg 1#3 0xFFFF#16) 0x3001#16
    (fun t => cc t 0#3 0x0000#16 0x0002#16) = true := by decide

/-! ### Data movement -/

/-- M2: the address wraps. -/
theorem test_ld_wraps : goesTo ((start 0x0000#16 0x2B00#16).setWord 0xFF01#16 0x8000#16) 0x0001#16
    (fun t => cc t 5#3 0x8000#16 0x0004#16) = true := by decide

/-- M3. -/
theorem test_ld_polls : goesTo (withInput [.byte 0x41#8] .closed (start 0xFDFF#16 0x2200#16)) 0xFE00#16
    (fun t => cc t 1#3 0x8000#16 0x0004#16 && t.word 0xFE02#16 == 0x0041#16 && t.word 0xFE00#16 == 0x8000#16 && t.console.pending.isEmpty) = true := by
  decide

/-- M5. -/
theorem test_ldi : goesTo (((start 0x3000#16 0xA608#16).setWord 0x3009#16 0x4000#16).setWord 0x4000#16 0xFFF9#16) 0x3001#16
    (fun t => cc t 3#3 0xFFF9#16 0x0004#16) = true := by decide

/-- K1: a poll that is not ready. -/
theorem test_ldi_polls_not_ready : goesTo (withInput [.notReady, .byte 0x41#8] .closed
      ((((start 0x3000#16 0xA206#16).setReg 1#3 0x1111#16).setWord 0x3007#16 0xFE00#16).setWord 0xFE02#16 0x0033#16)) 0x3001#16
    (fun t => cc t 1#3 0x0000#16 0x0002#16 && t.word 0xFE02#16 == 0x0033#16 && t.console.pending == [.byte 0x41#8]) = true := by decide

/-- M8: the base is the destination, and the address wraps. -/
theorem test_ldr : goesTo ((start 0x3000#16 0x627F#16).setWord 0xFFFF#16 0x00FF#16) 0x3001#16
    (fun t => cc t 1#3 0x00FF#16 0x0001#16) = true := by decide

/-- M9. -/
theorem test_ldr_wraps : goesTo (((start 0x3000#16 0x699F#16).setReg 6#3 0xFFF0#16).setWord 0x000F#16 0x7FFF#16) 0x3001#16
    (fun t => cc t 4#3 0x7FFF#16 0x0001#16) = true := by decide

/-- M11. -/
theorem test_lea_zero : goesTo ((start 0x0000#16 0xE1FF#16).setReg 0#3 0x1234#16) 0x0001#16
    (fun t => cc t 0#3 0x0000#16 0x0002#16) = true := by decide

/-- M13: an address of KBSR does not poll. -/
theorem test_lea_does_not_poll : goesTo (withInput [.byte 0x41#8] .closed (start 0xFDFF#16 0xE400#16)) 0xFE00#16
    (fun t => cc t 2#3 0xFE00#16 0x0004#16 && t.console.pending == [.byte 0x41#8] && t.word 0xFE00#16 == 0x0000#16) = true := by decide

/-- M14. -/
theorem test_st : goesTo ({ (start 0x3000#16 0x3001#16).setReg 0#3 0xBEEF#16 with cond := 0x0004#16 }) 0x3001#16
    (fun t => t.word 0x3002#16 == 0xBEEF#16 && t.cond == 0x0004#16) = true := by decide

/-- M15: a store to KBSR is plain. -/
theorem test_st_to_status : goesTo (withInput [.byte 0x41#8] .closed ((start 0xFDFF#16 0x3200#16).setReg 1#3 0x8000#16)) 0xFE00#16
    (fun t => t.word 0xFE00#16 == 0x8000#16 && t.console.pending == [.byte 0x41#8]) = true := by decide

/-- M16. -/
theorem test_sti : goesTo (((start 0x3000#16 0xB009#16).setReg 0#3 0xFFF9#16).setWord 0x300A#16 0x4000#16) 0x3001#16
    (fun t => t.word 0x4000#16 == 0xFFF9#16 && t.cond == 0x0002#16 && t.word 0x300A#16 == 0x4000#16) = true := by decide

/-- M17. -/
theorem test_str : goesTo (((start 0x3000#16 0x7041#16).setReg 0#3 0x5555#16).setReg 1#3 0x4000#16) 0x3001#16
    (fun t => t.word 0x4001#16 == 0x5555#16 && t.cond == 0x0002#16) = true := by decide

/-- M18: the base is the source, and the address wraps. -/
theorem test_str_wraps : goesTo ((start 0x3000#16 0x7260#16).setReg 1#3 0x0010#16) 0x3001#16
    (fun t => t.word 0xFFF0#16 == 0x0010#16) = true := by decide

/-! ### Control -/

/-- B1. -/
theorem test_br_taken : goesTo ({ start 0x3005#16 0x03FD#16 with cond := 0x0001#16 }) 0x3003#16 (fun t => t.cond == 0x0001#16) = true := by decide

/-- B3a. -/
theorem test_br_not_taken : goesTo ({ start 0x3005#16 0x07FD#16 with cond := 0x0004#16 }) 0x3006#16 (fun t => t.cond == 0x0004#16) = true := by decide

/-- B12: the ignored bits are set. -/
theorem test_jmp : goesTo ((start 0x3000#16 0xCEBF#16).setReg 2#3 0x4000#16) 0x4000#16 (fun t => t.reg 7#3 == 0x0000#16) = true := by decide

/-- B15: the target wraps. -/
theorem test_jsr : goesTo (start 0xFF00#16 0x4BFF#16) 0x0300#16 (fun t => cc t 7#3 0xFF01#16 0x0002#16) = true := by decide

/-- B14. -/
theorem test_jsr_backwards : goesTo (start 0x3000#16 0x4C00#16) 0x2C01#16 (fun t => cc t 7#3 0x3001#16 0x0002#16) = true := by decide

/-- B16. -/
theorem test_jsrr : goesTo ((start 0x3000#16 0x40C0#16).setReg 3#3 0x5000#16) 0x5000#16 (fun t => cc t 7#3 0x3001#16 0x0002#16) = true := by decide

/-- B17: the base is read after R7 is written. -/
theorem test_jsrr_r7 : goesTo ((start 0x3000#16 0x41C0#16).setReg 7#3 0x6000#16) 0x3001#16 (fun t => cc t 7#3 0x3001#16 0x0002#16) = true := by decide

/-! ### TRAP -/

/-- T3, with the link: a byte of 0xFF sets P. -/
theorem test_getc : goesTo (withInput [.notReady, .byte 0xFF#8, .byte 0x62#8] .closed
      (withConfig true true false [] [] .nonBlocking (start 0x3000#16 0xF020#16))) 0x3001#16
    (fun t => cc t 0#3 0x00FF#16 0x0001#16 && t.reg 7#3 == 0x3001#16 && t.console.pending == [.byte 0x62#8]) = true := by decide

/-- T4. -/
theorem test_getc_at_the_end_of_input : faults (withConfig true false false [] [] .nonBlocking ((start 0x3000#16 0xF020#16).setReg 0#3 0x1234#16))
    .consoleIOFailure 0x3000#16 0xF020#16 = true := by decide

/-- T5. -/
theorem test_out : goesTo ((start 0x3000#16 0xF021#16).setReg 0#3 0x1241#16) 0x3001#16
    (fun t => t.console.output == [0x41#8] && t.reg 0#3 == 0x1241#16 && t.reg 7#3 == 0x0000#16) = true := by decide

/-- R133, R43: the host accepts no more. -/
theorem test_out_fails : faults (withRoom 0 (start 0x3000#16 0xF021#16)) .consoleIOFailure 0x3000#16 0xF021#16 = true := by decide

/-- T11: the scan polls, and reads the polled byte. -/
theorem test_puts_through_the_keyboard_cells : goesTo (withInput [.byte 0x5A#8] .closed
      (((start 0x3000#16 0xF022#16).setReg 0#3 0xFDFF#16).setWord 0xFDFF#16 0x0041#16 |>.setWord 0xFE01#16 0x0043#16)) 0x3001#16
    (fun t => t.console.output == [0x41#8, 0x00#8, 0x43#8, 0x5A#8] && t.word 0xFE02#16 == 0x005A#16 && t.reg 0#3 == 0xFDFF#16) = true := by decide

/-- T9: the scan wraps. -/
theorem test_puts_wraps : goesTo (((start 0x3000#16 0xF022#16).setReg 0#3 0xFFFF#16).setWord 0xFFFF#16 0x0041#16 |>.setWord 0x0000#16 0x0042#16) 0x3001#16
    (fun t => t.console.output == [0x41#8, 0x42#8]) = true := by decide

/-- T13. -/
theorem test_in : goesTo (withInput [.byte 0x79#8] .closed (withConfig false true true [0x3E#8, 0x20#8] [] .nonBlocking (start 0x3000#16 0xF023#16))) 0x3001#16
    (fun t => cc t 0#3 0x0079#16 0x0001#16 && t.console.output == [0x3E#8, 0x20#8, 0x79#8]) = true := by decide

/-- R135, R42: the echo fails; the prompt stays written, and R0 is unchanged. -/
theorem test_in_echo_fails : steps (withRoom 1 (withInput [.byte 0x79#8] .closed
      (withConfig true false true [0x3E#8] [] .nonBlocking (start 0x3000#16 0xF023#16))))
    (fun t => t.status == .faulted ⟨.consoleIOFailure, 0x3000#16, 0xF023#16⟩ && t.console.output == [0x3E#8] && t.reg 0#3 == 0x0000#16 &&
      t.reg 7#3 == 0x0000#16 && t.console.pending.isEmpty) = true := by decide

/-- T14. -/
theorem test_putsp : goesTo ((((start 0x3000#16 0xF024#16).setReg 0#3 0x4000#16).setWord 0x4000#16 0x6948#16).setWord 0x4001#16 0x0021#16
      |>.setWord 0x4002#16 0x0055#16) 0x3001#16
    (fun t => t.console.output == [0x48#8, 0x69#8, 0x21#8]) = true := by decide

/-- T16: a zero low byte is written. -/
theorem test_putsp_zero_low : goesTo (((start 0x3000#16 0xF024#16).setReg 0#3 0x4000#16).setWord 0x4000#16 0x4100#16) 0x3001#16
    (fun t => t.console.output == [0x00#8, 0x41#8]) = true := by decide

/-- T17, T18, with the link. -/
theorem test_halt : goesTo (withConfig true false false [] [0x48#8, 0x0A#8] .nonBlocking (start 0x3007#16 0xF025#16)) 0xFFFF#16
    (fun t => t.console.output == [0x48#8, 0x0A#8] && t.reg 7#3 == 0x3008#16 && stops t .halted) = true := by decide

/-- T19: the vector check comes before the link. -/
theorem test_unknown_vector : faults (withConfig true false false [] [] .nonBlocking ((start 0x3000#16 0xF026#16).setReg 7#3 0x1111#16))
    .unknownTrapVector 0x3000#16 0xF026#16 = true := by decide

/-- U1, U2. -/
theorem test_reserved : faults ((start 0x3000#16 0xD000#16).setReg 0#3 7#16) .reservedOpcode 0x3000#16 0xD000#16 = true ∧
    faults (start 0x3000#16 0xDFFF#16) .reservedOpcode 0x3000#16 0xDFFF#16 = true := by decide

/-- U4; and the machine takes no later step. -/
theorem test_op8 : faults (start 0x4000#16 0x8001#16) .reservedOpcode 0x4000#16 0x8001#16 = true ∧
    steps (start 0x4000#16 0x8001#16) (fun t => stops t (.stopped ⟨.reservedOpcode, 0x4000#16, 0x8001#16⟩)) = true := by decide

/-! ### Keyboard, fetch, load and run -/

/-- K4. -/
theorem test_fetch_polls :
    goesTo (withInput [.notReady] .closed (start 0xFE00#16 0x1234#16)) 0xFE01#16 (fun t => t.word 0xFE00#16 == 0x0000#16) = true ∧
    steps (withInput [.byte 0x41#8] .closed (start 0xFE00#16 0x1234#16))
      (fun t => t.status == .faulted ⟨.reservedOpcode, 0xFE00#16, 0x8000#16⟩ && t.pc == 0xFE00#16 && t.word 0xFE02#16 == 0x0041#16) = true := by decide

/-- R70, R164: a fetch whose poll fails; the word recorded is KBSR as it was. -/
theorem test_fetch_fails :
    faults (withInput [.failure] .closed (start 0xFE00#16 0x1234#16)) .consoleIOFailure 0xFE00#16 0x1234#16 = true := by decide

/-- K6. -/
theorem test_poll_fails :
    faults (withInput [.failure] .closed (start 0xFDFF#16 0x2000#16)) .consoleIOFailure 0xFDFF#16 0x2000#16 = true := by decide

/-- R52: the blocking policy waits past a moment with no byte, and for ever if the host stays silent. -/
theorem test_blocking_policy :
    goesTo (withConfig false false false [] [] .blocking (withInput [.notReady, .byte 0x41#8] .closed (start 0xFDFF#16 0x2200#16))) 0xFE00#16
      (fun t => cc t 1#3 0x8000#16 0x0004#16 && t.word 0xFE02#16 == 0x0041#16) = true ∧
    stops (withConfig false false false [] [] .blocking (withInput [] .silent (start 0xFDFF#16 0x2200#16))) .waitingForInput = true := by decide

/-- S9, LD1. -/
theorem test_load :
    (match loadImage (some [0x30#8, 0x00#8, 0x00#8, 0x01#8, 0x00#8, 0x02#8]) (start 0#16 0#16) with
      | .ok t => t.pc == 0x3000#16 && t.word 0x3000#16 == 0x0001#16 && t.word 0x3001#16 == 0x0002#16
      | .error _ => false) = true := by decide

/-- LD6, LD5: a load that wraps, and a run that falls through to 0xFFFF. -/
theorem test_run :
    (match loadImage (some [0xFF#8, 0xFF#8, 0x12#8, 0x34#8, 0x56#8, 0x78#8]) (start 0#16 0#16) with
      | .ok t => t.word 0xFFFF#16 == 0x1234#16 && t.word 0x0000#16 == 0x5678#16 && stops t .halted
      | .error _ => false) = true ∧
    (match loadImage (some [0xFF#8, 0xFE#8, 0x10#8, 0x21#8]) (start 0#16 0#16) with
      | .ok t => match runFor 2 t with
        | .halted u => cc u 0#3 0x0001#16 0x0001#16
        | .faulted _ _ => false
        | .hangs _ _ => false
        | .unfinished _ => false
      | .error _ => false) = true := by decide

/-- LD2, LD3, LD7. -/
theorem test_bad_images :
    statusOutput 9 otherParams Console.reset (some [0x30#8, 0x00#8, 0x12#8]) = .loadFault .imageMalformed ∧
    statusOutput 9 otherParams Console.reset (some []) = .loadFault .imageMalformed ∧
    statusOutput 9 otherParams Console.reset none = .loadFault .imageNotFound := by decide

/-- R44: GETC and HALT end halted with a host that supplies a byte, and in a fault of GETC with one that supplies none. -/
theorem test_status_output :
    statusOutput 3 (start 0#16 0#16).config { Console.reset with pending := [.byte 0x61#8] }
      (some [0x30#8, 0x00#8, 0xF0#8, 0x20#8, 0xF0#8, 0x25#8]) = .halted ∧
    statusOutput 3 (start 0#16 0#16).config Console.reset (some [0x30#8, 0x00#8, 0xF0#8, 0x20#8, 0xF0#8, 0x25#8]) =
      .coreFault ⟨.consoleIOFailure, 0x3000#16, 0xF020#16⟩ := by decide

/-- R9: the rules take their parameters as arguments: reset values, both keyboard cells and what a poll leaves there, and where a run ends. -/
theorem test_other_parameters :
    (cc (State.resetWith otherParams Console.reset) 6#3 0x1234#16 0x0004#16 &&
      (State.resetWith otherParams Console.reset).word 0x5000#16 == 0x5678#16) = true ∧
    goesTo { withInput [.byte 0x41#8] .closed (start 0x3FFF#16 0x2200#16) with config := otherParams } 0x4000#16
      (fun t => cc t 1#3 0x0007#16 0x0001#16 && t.word 0x4000#16 == 0x0007#16 && t.word 0x4001#16 == 0x0041#16 && t.word 0xFE00#16 == 0x0000#16) =
      true ∧
    stops { start 0x3005#16 0x1021#16 with config := otherParams } .halted = true ∧
    goesTo { start 0x3000#16 0xF025#16 with config := otherParams } 0x3005#16 (fun _ => true) = true := by decide

/-- The codes of R160. -/
theorem test_error_codes :
    [ErrorKind.imageNotFound, .imageMalformed, .reservedOpcode, .unknownTrapVector, .consoleIOFailure].map errorCode = [0, 1, 2, 3, 4] := by decide

/-! ## The hypotheses of the statements are met -/

/-- DecodeOfEncodeIsTheInstruction, at both ends of the vectors without a service. -/
theorem test_meets_wf :
    (Instr.trapUnknown 0#4 0x00#8).wf = true ∧ (Instr.trapUnknown 0#4 0xFF#8).wf = true ∧ (Instr.addReg 7#3 7#3 3#2 7#3).wf = true := by decide

/-- ReadPollsOnlyTheStatusCell, and every statement of an instruction that goes as a read goes: a read that completes, one that fails, one that waits. -/
theorem test_meets_read_outcomes :
    memRead 0xFE02#16 (start 0#16 7#16) = .done 0x0000#16 (start 0#16 7#16) ∧
    (∃ d, memRead 0xFE00#16 (withInput [.byte 0x41#8] .closed (start 0#16 7#16)) = .done 0x8000#16 d) ∧
    (∃ d, memRead 0xFE00#16 (withInput [.failure] .closed (start 0#16 7#16)) = .failed d) ∧
    memRead 0xFE00#16 (withConfig false false false [] [] .blocking (withInput [.notReady] .silent (start 0#16 7#16))) =
      .stuck .waitingForInput :=
  ⟨rfl, ⟨_, rfl⟩, ⟨_, rfl⟩, rfl⟩

/-- NonBlockingPollStoresTheAnswer. -/
theorem test_meets_non_blocking_poll :
    (∀ answers, (withInput answers .closed (start 0#16 7#16)).config.kbPolicy = .nonBlocking) ∧
    (∃ c, conPoll (withInput [.byte 0xFF#8] .closed (start 0#16 7#16)) = .done (some 0xFF#8) c) ∧
    (∃ c, conPoll (withInput [.notReady] .closed (start 0#16 7#16)) = .done none c) ∧
    (∃ c, conPoll (withInput [.failure] .closed (start 0#16 7#16)) = .failed c) :=
  ⟨fun _ => rfl, ⟨_, rfl⟩, ⟨_, rfl⟩, ⟨_, rfl⟩⟩

/-- BlockingPollWaitsForAByte. -/
theorem test_meets_blocking_poll :
    (∀ answers e, (withConfig false false false [] [] .blocking (withInput answers e (start 0#16 7#16))).config.kbPolicy = .blocking) ∧
    (∃ c, conRead (withInput [.notReady, .byte 0x41#8] .closed (start 0#16 7#16)) = .done 0x41#8 c) ∧
    (∃ c, conRead (withInput [.notReady, .failure] .closed (start 0#16 7#16)) = .failed c) ∧
    conRead (withInput [.notReady] .silent (start 0#16 7#16)) = .stuck .waitingForInput :=
  ⟨fun _ _ => rfl, ⟨_, rfl⟩, ⟨_, rfl⟩, rfl⟩

/-- InputIsAnsweredInOrder, clause by clause, with no moment of waiting and with two; and every way the input can go on after its answers. -/
theorem test_meets_input_order :
    (withInput [.byte 0#8, .failure] .closed (start 0#16 7#16)).console.pending = List.replicate 0 .notReady ++ .byte 0#8 :: [.failure] ∧
    (withInput [.notReady, .notReady, .failure] .closed (start 0#16 7#16)).console.pending = List.replicate 2 .notReady ++ .failure :: [] ∧
    (withInput [.notReady, .notReady] .closed (start 0#16 7#16)).console.pending = List.replicate 2 .notReady ∧
    (withInput [] .silent (start 0#16 7#16)).console.pending = List.replicate 0 .notReady ∧
    (withInput [] .silent (start 0#16 7#16)).console.inputEnd = .silent ∧
    (withInput [] .closed (start 0#16 7#16)).console.pending = [] ∧
    (withInput [] .closed (start 0#16 7#16)).console.inputEnd = .closed ∧
    (withInput [.notReady] (.endless 0xFF#8) (start 0#16 7#16)).console.pending = List.replicate 1 .notReady ∧
    (withInput [] (.endless 0xFF#8) (start 0#16 7#16)).console.pending = [] ∧
    (withInput [] (.endless 0xFF#8) (start 0#16 7#16)).console.inputEnd = .endless 0xFF#8 :=
  ⟨rfl, rfl, rfl, rfl, rfl, rfl, rfl, rfl, rfl, rfl⟩

/-- The second clauses of LD, LDI, LDR and STI: addresses next to KBSR, and KBDR. -/
theorem test_meets_plain_addresses :
    (start 0xFDFE#16 7#16).config.kbsrAddr = 0xFE00#16 ∧ (start 0xFDFE#16 7#16).pc + sext 0x001#9 ≠ 0xFE00#16 ∧ (start 0xFDFF#16 7#16).pc + sext 0x003#9 = 0xFE02#16 ∧
    (start 0x3000#16 7#16).word ((start 0x3000#16 7#16).pc + sext 0x000#9) ≠ 0xFE00#16 ∧
    (start 0x3000#16 7#16).reg 6#3 + sext 0x3F#6 ≠ 0xFE00#16 := by decide

/-- BrFollowsTheDecisionTable, one state for each flag. -/
theorem test_meets_cond_one_flag :
    CondOneFlag { start 0#16 0#16 with cond := 0x0004#16 } ∧ CondOneFlag { start 0#16 0#16 with cond := 0x0002#16 } ∧
    CondOneFlag { start 0#16 0#16 with cond := 0xFFF9#16 } :=
  ⟨.inl rfl, .inr (.inl rfl), .inr (.inr rfl)⟩

/-- GETC, OUT, IN and HALT: a byte is the next answer, the host accepts one more byte, the host accepts every byte, the host accepts just the banner. -/
theorem test_meets_service_conditions :
    (withInput [.byte 0x61#8, .notReady] .closed (start 0#16 0#16)).console.pending = .byte 0x61#8 :: [.notReady] ∧
    (withRoom 1 (start 0#16 0#16)).console.writesLeft ≠ some 0 ∧
    (withInput [.byte 0x61#8] .closed (start 0#16 0#16)).console.writesLeft = none ∧
    (∀ m, (withRoom 2 (withConfig false false false [] [0x48#8, 0x0A#8] .nonBlocking (start 0#16 0#16))).console.writesLeft = some m →
      [0x48#8, 0x0A#8].length ≤ m) :=
  ⟨rfl, by decide, rfl, fun m h => by cases h; decide⟩

/-- GETC and OUT that fail, GETC that waits, and IN whose echo fails: the other cases of the statements that go as a console primitive goes. -/
theorem test_meets_service_failures :
    (∃ d, conRead (start 0#16 0#16) = .failed d) ∧ conRead (withInput [] .silent (start 0#16 0#16)) = .stuck .waitingForInput ∧
    conWrite 0x41#8 (withRoom 0 (start 0#16 0#16)) = .failed (withRoom 0 (start 0#16 0#16)) ∧
    (∃ d, writeBytes [0x48#8, 0x0A#8] (withRoom 1 (start 0#16 0#16)) = .failed d) :=
  ⟨⟨_, rfl⟩, rfl, rfl, ⟨_, rfl⟩⟩

/-- A string of two words, wrapping, at R0, whose high bytes are not zero, and a word after it whose high byte is. -/
def stringState : State :=
  ((((start 0x3000#16 0xF022#16).setReg 0#3 0xFFFF#16).setWord 0xFFFF#16 0x6948#16).setWord 0x0000#16 0x4100#16)

/-- PutsWritesTheString, with a host that accepts just enough, and of no character. -/
theorem test_meets_puts_string :
    (∀ k, k < 2 → (withRoom 2 stringState).word ((withRoom 2 stringState).reg 0#3 + BitVec.ofNat 16 k) ≠ 0x0000#16) ∧
    (withRoom 2 stringState).word ((withRoom 2 stringState).reg 0#3 + BitVec.ofNat 16 2) = 0x0000#16 ∧
    (∀ k, k ≤ 2 → (withRoom 2 stringState).reg 0#3 + BitVec.ofNat 16 k ≠ 0xFE00#16) ∧
    (∀ m, (withRoom 2 stringState).console.writesLeft = some m → 2 ≤ m) ∧
    (start 0x3000#16 0xF022#16).word ((start 0x3000#16 0xF022#16).reg 0#3 + BitVec.ofNat 16 0) = 0x0000#16 := by
  refine ⟨by decide, by decide, by decide, ?_, by decide⟩
  intro m h
  cases h
  decide

/-- PutspWritesThePackedString: the string ends in a zero word, and in a word with a zero high byte. -/
theorem test_meets_putsp_string :
    (∀ k, k < 2 → (stringState.word (stringState.reg 0#3 + BitVec.ofNat 16 k)).extractLsb' 8 8 ≠ 0#8) ∧
    (stringState.word (stringState.reg 0#3 + BitVec.ofNat 16 2)).extractLsb' 8 8 = 0#8 ∧
    ((stringState.setWord 0x0001#16 0x0021#16).word ((stringState.setWord 0x0001#16 0x0021#16).reg 0#3 + BitVec.ofNat 16 2)).extractLsb' 8 8 = 0#8 ∧
    (∀ k, k ≤ 2 → stringState.reg 0#3 + BitVec.ofNat 16 k ≠ 0xFE00#16) ∧ stringState.console.writesLeft = none :=
  ⟨by decide, by decide, by decide, by decide, rfl⟩

/-- PutsRunsTheLoopToItsEnd and PutspRunsTheLoopToItsEnd: loops that end well, in a failed write, in a failed poll, and in a wait. -/
theorem test_meets_loops_that_end :
    (∃ d, PutsLoop 0x0000#16 (start 0x3000#16 0xF022#16) (.done () d)) ∧
    (∃ d, PutsLoop 0x3000#16 (withRoom 0 (start 0x3000#16 0xF022#16)) (.failed d)) ∧
    (∃ d, PutspLoop 0xFE00#16 (withInput [.failure] .closed (start 0x3000#16 0xF024#16)) (.failed d)) ∧
    PutspLoop 0xFE00#16 (withConfig false false false [] [] .blocking (withInput [] .silent (start 0x3000#16 0xF024#16)))
      (.stuck .waitingForInput) :=
  ⟨⟨_, .terminator rfl⟩, ⟨_, .writeFails (w := 0xF022#16) rfl (by decide) rfl⟩, ⟨_, .readFails rfl⟩, .readWaits rfl⟩

/-- A word for every address, none of them zero; the keyboard cells as a poll that obtains 0x41 leaves them. -/
def fullWord (a : Nat) : Word := if a = 0xFE00 then 0x8000#16 else if a = 0xFE02 then 0x0041#16 else 0x0001#16

/-- The memory of the first `n` of them. -/
def fullMemory (n : Nat) : Memory := (List.range n).map fun a => (a, fullWord a)

/-- Memory full of them, and a host that supplies 0x41 for ever and accepts every byte. -/
def endlessState : State := { withInput [] (.endless 0x41#8) (start 0x3000#16 0xF022#16) with mem := fullMemory 65536 }

theorem read_map (f : Nat → Word) (l : List Nat) (a : Nat) (h : a ∈ l) :
    Memory.read (l.map fun b => (b, f b)) a = f a := by
  induction l with
  | nil => cases h
  | cons b l ih =>
    by_cases hb : b = a
    · simp [Memory.read, hb]
    · simp [Memory.read, hb, ih ((List.mem_cons.mp h).resolve_left (Ne.symm hb))]

theorem read_fullMemory (n a : Nat) (h : a < n) : (fullMemory n).read a = fullWord a :=
  read_map fullWord _ _ (List.mem_range.mpr h)

theorem endlessState_word (a : Word) : endlessState.word a = fullWord a.toNat := by
  have h : a.toNat < 65536 := a.isLt
  simp only [State.word, endlessState]
  exact read_fullMemory _ _ h

/-- The same memory and host are one steady round: a poll stores what stands there. -/
theorem endlessState_steady : Steady (some 0x41#8) endlessState where
  pending := rfl
  repeats := rfl
  writesLeft := rfl
  fixed c := by
    have h1 : endlessState.config.kbsrAddr = 0xFE00#16 := rfl
    have h2 : endlessState.config.kbdrAddr = 0xFE02#16 := rfl
    have h3 : endlessState.config.kbsrReady = 0x8000#16 := rfl
    simp only [storeAnswer, storeKey, word_setWord, h1, h2, h3]
    split
    · rename_i hc
      rw [hc, endlessState_word]
      decide
    · split
      · rename_i hc
        rw [hc, endlessState_word]
        decide
      · rfl

/-- PutsRunsTheLoopToItsEnd, second clause: a loop that never ends. -/
theorem test_meets_loop_that_never_ends : ¬ ∃ r, PutsLoop (endlessState.reg 0#3) endlessState r := by
  rintro ⟨r, h⟩
  obtain ⟨k, _, he⟩ := h.scan
  obtain ⟨i, hi⟩ := steady_last emitPuts_laws k _ _ endlessState_steady he
  rw [endlessState_word] at hi
  unfold fullWord at hi
  split at hi
  · simp at hi
  · split at hi <;> simp at hi

/-- The same machine with both keyboard cells at 0xFE00, where a poll leaves 0x8000, and no zero high byte in any cell. -/
def endlessPackedState : State :=
  { endlessState with
    mem := (List.range 65536).map fun a => (a, if a = 0xFE00 then 0x8000#16 else 0x0101#16)
    config := { endlessState.config with kbdrAddr := 0xFE00#16 } }

theorem endlessPackedState_word (a : Word) : endlessPackedState.word a = if a.toNat = 0xFE00 then 0x8000#16 else 0x0101#16 := by
  have h : a.toNat < 65536 := a.isLt
  simp only [State.word, endlessPackedState]
  exact read_map (fun a => if a = 0xFE00 then 0x8000#16 else 0x0101#16) _ _ (List.mem_range.mpr h)

theorem endlessPackedState_steady : Steady (some 0x41#8) endlessPackedState where
  pending := rfl
  repeats := rfl
  writesLeft := rfl
  fixed c := by
    have h1 : endlessPackedState.config.kbsrAddr = 0xFE00#16 := rfl
    have h2 : endlessPackedState.config.kbdrAddr = 0xFE00#16 := rfl
    have h3 : endlessPackedState.config.kbsrReady = 0x8000#16 := rfl
    simp only [storeAnswer, storeKey, word_setWord, h1, h2, h3]
    split
    · rename_i hc
      rw [hc, endlessPackedState_word]
      decide
    · rfl

/-- PutspRunsTheLoopToItsEnd, second clause: with these parameters a loop of PUTSP never ends; third clause: the machine of the spec. -/
theorem test_meets_packed_loop_that_never_ends :
    (¬ ∃ r, PutspLoop (endlessPackedState.reg 0#3) endlessPackedState r) ∧ SpecValues (start 0#16 0#16).config := by
  refine ⟨?_, ⟨rfl, rfl, rfl, rfl, rfl⟩⟩
  rintro ⟨r, h⟩
  obtain ⟨k, _, he⟩ := h.scan
  obtain ⟨i, hi⟩ := steady_last emitPutsp_laws k _ _ endlessPackedState_steady he
  rw [endlessPackedState_word] at hi
  split at hi <;> revert hi <;> decide

/-- UnknownVectorFaultsWithNothingWritten, at the four ends of its two ranges. -/
theorem test_meets_unknown_vectors :
    (0x00#8).toNat < 0x20 ∧ (0x1F#8).toNat < 0x20 ∧ 0x25 < (0x26#8).toNat ∧ 0x25 < (0xFF#8).toNat := by decide

/-- StepRunsTheDecodedInstruction: a fetch that completes, one that fails, one that waits; a halted machine; a faulted one. -/
theorem test_meets_step_conditions :
    ((start 0xFFFE#16 0x1021#16).status = .running ∧ (start 0xFFFE#16 0x1021#16).pc ≠ 0xFFFF#16 ∧
      ∃ d, memRead (start 0xFFFE#16 0x1021#16).pc (start 0xFFFE#16 0x1021#16) = .done 0x1021#16 d) ∧
    (∃ d, memRead 0xFE00#16 (withInput [.failure] .closed (start 0xFE00#16 0#16)) = .failed d) ∧
    memRead 0xFE00#16 (withConfig false false false [] [] .blocking (withInput [] .silent (start 0xFE00#16 0#16))) = .stuck .waitingForInput ∧
    ((start 0xFFFF#16 0x1021#16).status = .running ∧ (start 0xFFFF#16 0x1021#16).pc = 0xFFFF#16) ∧
    { start 0xFFFF#16 0#16 with status := .faulted ⟨.reservedOpcode, 0xFFFF#16, 0xD000#16⟩ }.status =
      .faulted ⟨.reservedOpcode, 0xFFFF#16, 0xD000#16⟩ :=
  ⟨⟨rfl, by decide, ⟨_, rfl⟩⟩, ⟨_, rfl⟩, rfl, ⟨rfl, rfl⟩, rfl⟩

/-- FetchFromTheStatusCellRunsThePoll, with both answers. -/
theorem test_meets_fetch_from_status :
    SpecValues (start 0xFE00#16 0x1234#16).config ∧
    (start 0xFE00#16 0x1234#16).status = .running ∧ (start 0xFE00#16 0x1234#16).pc = 0xFE00#16 ∧
    (start 0xFE00#16 0x1234#16).config.kbPolicy = .nonBlocking ∧
    (∃ c, conPoll (start 0xFE00#16 0x1234#16) = .done none c) ∧
    (∃ c, conPoll (withInput [.byte 0x00#8] .closed (start 0xFE00#16 0x1234#16)) = .done (some 0x00#8) c) :=
  ⟨⟨rfl, rfl, rfl, rfl, rfl⟩, rfl, rfl, rfl, ⟨_, rfl⟩, ⟨_, rfl⟩⟩

/-- StoresAreSeenByTheNextFetch: ST stores over the very next instruction; STI stores through a pointer. -/
theorem test_meets_store_conditions :
    (∃ t, exec (.st 0#3 0x000#9) (start 0x3001#16 0#16) = .next t ∧ t.status = .running ∧ t.pc = 0x3001#16) ∧
    storeAddress (.st 0#3 0x000#9) (start 0x3001#16 0#16) = some 0x3001#16 ∧ storeSource (.st 0#3 0x000#9) = some 0#3 ∧
    storeAddress (.sti 0#3 0x000#9) (start 0x3001#16 0x4000#16) = some 0x4000#16 ∧
    (∃ t, exec (.sti 0#3 0x000#9) (start 0x3001#16 0x4000#16) = .next t) ∧
    storeAddress (.str 1#3 1#3 0x3F#6) (start 0x3001#16 0#16) = some 0xFFFF#16 :=
  ⟨⟨_, rfl, rfl, rfl⟩, rfl, rfl, rfl, ⟨_, rfl⟩, rfl⟩

/-- StoreToTheStatusCellIsNeverReadBack. -/
theorem test_meets_store_to_status :
    ∃ d, memRead 0xFE00#16 (memWrite 0xFE00#16 0x5555#16 (start 0#16 0#16)) = .done 0x0000#16 d := ⟨_, rfl⟩

/-- The rules of the whole machine: an instruction that writes COND, one that does not, GETC under either value of `trap_sets_cc`, a step. -/
theorem test_meets_whole_machine :
    (∃ t, exec (.not 0#3 0#3 0#6) (start 0x3001#16 0#16) = .next t ∧ t.status = (start 0x3001#16 0#16).status) ∧
    (∃ t, exec (.st 0#3 0#9) (start 0x3001#16 0#16) = .next t) ∧
    storeAddress (.st 0#3 0#9) (start 0x3001#16 0#16) ≠ some 0xFDFF#16 ∧
    writesCond (start 0#16 0#16).config (.trapGetc 0#4) = false ∧
    writesCond (withConfig false true false [] [] .nonBlocking (start 0#16 0#16)).config (.trapGetc 0#4) = true ∧
    (∃ t, exec (.trapGetc 0#4) (withInput [.byte 0#8] .closed (withConfig false true false [] [] .nonBlocking (start 0#16 0#16))) = .next t ∧
      t.status = .running) ∧
    (∃ t, step (start 0x3000#16 0xF021#16) = .next t) :=
  ⟨⟨_, rfl, rfl⟩, ⟨_, rfl⟩, by decide, rfl, rfl, ⟨_, rfl, rfl⟩, ⟨_, rfl⟩⟩

/-- FaultsArePrecise: an opcode fault, a vector fault, a console failure after a byte was accepted, and a fault of a word fetched from KBSR. -/
theorem test_meets_faulting_steps :
    (∃ t, step (start 0x3000#16 0xD000#16) = .next t ∧ t.status = .faulted ⟨.reservedOpcode, 0x3000#16, 0xD000#16⟩) ∧
    (∃ t, step (start 0x3000#16 0xF0FF#16) = .next t ∧ t.status = .faulted ⟨.unknownTrapVector, 0x3000#16, 0xF0FF#16⟩) ∧
    (∃ t, step (withConfig true true true [0x3E#8] [] .nonBlocking (start 0x3000#16 0xF023#16)) = .next t ∧
      t.status = .faulted ⟨.consoleIOFailure, 0x3000#16, 0xF023#16⟩ ∧ t.console.output = [0x3E#8]) ∧
    (∃ t, step (withInput [.byte 0x41#8] .closed (start 0xFE00#16 0#16)) = .next t ∧
      t.status = .faulted ⟨.reservedOpcode, 0xFE00#16, 0x8000#16⟩) :=
  ⟨⟨_, rfl, rfl⟩, ⟨_, rfl, rfl⟩, ⟨_, rfl, rfl, rfl⟩, ⟨_, rfl, rfl⟩⟩

/-- StepKeepsTheInvariant: a state with the invariant, and its next state; InvariantHoldsAtReset: parameters to reset with. -/
theorem test_meets_invariant :
    (Inv (start 0x3000#16 0x1021#16) ∧ ∃ t, step (start 0x3000#16 0x1021#16) = .next t) ∧
    Memory.wf otherParams.memReset = true ∧ CondOneFlag (State.resetWith otherParams Console.reset) :=
  ⟨⟨⟨by decide, .inr (.inl rfl), fun _ h => by cases h⟩, ⟨_, rfl⟩⟩, by decide, .inl rfl⟩

/-- ResetLeavesTheSpecsValues, BadImagesAreRejected and LoaderPlacesTheImage: images of every kind, and one of every even length. -/
theorem test_meets_images :
    ([] : List Byte).length % 2 = 0 ∧ [0x30#8].length % 2 = 1 ∧ ([0x30#8, 0x00#8].length % 2 = 0 ∧ [0x30#8, 0x00#8] ≠ []) ∧
    [0x30#8, 0x00#8].length = 2 * 0 + 2 ∧ [0xFF#8, 0xFF#8, 0x12#8, 0x34#8, 0x56#8, 0x78#8].length = 2 * 2 + 2 ∧
    ∀ n, ∃ bytes : List Byte, bytes.length = 2 * n + 2 :=
  ⟨by decide, by decide, ⟨by decide, by decide⟩, by decide, by decide, fun _ => ⟨List.replicate _ 0x01#8, List.length_replicate⟩⟩

/-- RunsEndHaltedOrFaulted and StatusOutputPresentsTheEnd: runs that end halted, end faulted, hang and go on; states of each kind; and a load that succeeds. -/
theorem test_meets_run_ends :
    (∃ t, runFor 2 (start 0xFFFE#16 0x1021#16) = .halted t) ∧
    (∃ t, runFor 2 (start 0x3000#16 0xD000#16) = .faulted ⟨.reservedOpcode, 0x3000#16, 0xD000#16⟩ t) ∧
    (∃ t, runFor 2 (withInput [] .silent (start 0x3000#16 0xF020#16)) = .hangs .waitingForInput t) ∧
    (∃ t, runFor 2 (start 0x3000#16 0x1021#16) = .unfinished t) ∧
    ((start 0xFFFF#16 0#16).status = .running ∧ (start 0xFFFF#16 0#16).pc = (start 0xFFFF#16 0#16).config.haltPc) ∧
    (∃ t, step (start 0xFFFE#16 0x1021#16) = .next t ∧ t.pc = t.config.haltPc) ∧
    (∃ t, boot (start 0#16 0#16).config Console.reset (some [0x30#8, 0x00#8]) = .ok t) :=
  ⟨⟨_, rfl⟩, ⟨_, rfl⟩, ⟨_, rfl⟩, ⟨_, rfl⟩, ⟨rfl, rfl⟩, ⟨_, rfl, rfl⟩, ⟨_, rfl⟩⟩

/-- PlacedWordIsTheNextInstruction: a pc that stays, the two that do not, and a machine whose sentinel and KBSR are the
first two addresses tried. -/
theorem test_meets_placed_word :
    ((start 0xFFFE#16 0#16).withFetchWord 16 0x1021).pc = 0xFFFE#16 ∧ ((start 0xFFFF#16 0#16).withFetchWord 16 0x1021).pc = 0x3000#16 ∧
    ((start 0xFE00#16 0#16).withFetchWord 16 0x1021).pc = 0x3000#16 ∧
    goesTo (State.withFetchWord
        { start 0x3000#16 0#16 with config := { (start 0#16 0#16).config with haltPc := 0x3000#16, kbsrAddr := 0x3001#16 } } 16 0x1021) 0x3003#16
      (fun t => cc t 0#3 0x0001#16 0x0001#16) = true := by decide

end Sys2Proof.Tests
end

section
/-! PROOFS of the family TRAP services (spec/43_trap.md R130 to R137) and of sign extension (spec/00_scope.md R12): O6 and O31 to O38.
Every service is a console operation run behind the link of R7, so what it comes to is what that operation comes to (`service_follows`); and a string
scan away from KBSR is one list of writes (`StringAt.scanString_eq`). -/

namespace Sys2Proof.Machine

/-! ### Extension -/

/-- R12, at every width up to a word's. -/
theorem sext_toNat {n : Nat} (v : BitVec n) (hn : n ≤ 16) :
    (sext v).toNat = if v.getLsbD (n - 1) then v.toNat + (65536 - 2 ^ n) else v.toNat := by
  have hfits : v.toNat % 2 ^ 16 = v.toNat :=
    Nat.mod_eq_of_lt (v.isLt.trans_le (Nat.pow_le_pow_right (by decide) hn))
  rw [sext, BitVec.toNat_signExtend, BitVec.toNat_setWidth, hfits, BitVec.msb_eq_getLsbD_last]
  split <;> rfl

@[simp] theorem zext_toNat (b : Byte) : (zext b).toNat = b.toNat :=
  BitVec.toNat_setWidth_of_le (by decide)

/-- Settles O6, from the formula at every width. -/
theorem signExtensionIsTheFormula : Obligations.SignExtensionIsTheFormula :=
  ⟨fun v => sext_toNat v (by decide), fun v => sext_toNat v (by decide), fun v => sext_toNat v (by decide),
    fun v => sext_toNat v (by decide), zext_toNat⟩

/-! ### Operations on the console and the decoder -/

theorem Result.bind_assoc {α β γ : Type} (r : Result α) (f : α → State → Result β) (g : β → State → Result γ) :
    (r.bind f).bind g = r.bind fun v s => (f v s).bind g := by
  cases r <;> rfl

@[simp] theorem Result.bind_done_unit (r : Result Unit) : (r.bind fun _ d => .done () d) = r := by
  cases r <;> rfl

/-- An operation of the host's side: it looks at no register, and where it completes it has changed nothing but what the host's answers do. -/
structure HostOp {α : Type} (op : State → Result α) : Prop where
  overlay : ∀ regs pc cond s, op (overlay regs pc cond s) = (op s).mapState (overlay regs pc cond)
  effects : ∀ {s v d}, op s = .done v d → HostEffects s d

theorem hostOp_done {α : Type} (v : α) : HostOp (Result.done v) where
  overlay _ _ _ _ := rfl
  effects h := by cases h; exact .refl _

theorem HostOp.bind {α β : Type} {op : State → Result α} {f : α → State → Result β} (hop : HostOp op)
    (hf : ∀ v, HostOp (f v)) : HostOp fun s => (op s).bind f where
  overlay regs pc cond s := by
    rw [hop.overlay]
    exact Result.mapState_bind _ _ _ _ fun v d => (hf v).overlay regs pc cond d
  effects h := by
    obtain ⟨v, d, hd, ht⟩ := Result.bind_eq_done h
    exact (hop.effects hd).trans ((hf v).effects ht)

theorem hostOp_conRead : HostOp conRead where
  overlay := conRead_overlay
  effects h := (conRead_done h).1

theorem hostOp_conWrite (b : Byte) : HostOp (conWrite b) where
  overlay regs pc cond s := conWrite_overlay regs pc cond b s
  effects h := (conWrite_done h).1

theorem hostOp_conWriteAll (bytes : List Byte) : HostOp (conWriteAll bytes) where
  overlay regs pc cond s := conWriteAll_overlay regs pc cond bytes s
  effects h := (conWriteAll_done h).1

theorem EmitLaws.hostOp_scanString {emit : Word → State → Result Bool} {more : Word → Bool} (L : EmitLaws emit more)
    (k : Nat) (a : Word) : HostOp (scanString emit k a) where
  overlay regs pc cond s := scanString_overlay L regs pc cond k a s
  effects h := scanString_effects L k a _ _ (.inl h)

/-! ### Lists of writes -/

/-- The writes as the spec writes them are the model's (R135, R137). -/
theorem writeBytes_eq_conWriteAll (bytes : List Byte) (s : State) : writeBytes bytes s = conWriteAll bytes s := by
  induction bytes generalizing s with
  | nil => exact (conWriteAll_nil s).symm
  | cons b bytes ih => simp only [writeBytes, conWriteAll_cons, ih]

theorem conWriteAll_singleton (b : Byte) (s : State) : conWriteAll [b] s = conWrite b s := by
  simp [conWriteAll_cons, conWriteAll_nil]

theorem conWriteAll_append (xs ys : List Byte) (s : State) :
    conWriteAll (xs ++ ys) s = (conWriteAll xs s).bind fun _ d => conWriteAll ys d := by
  induction xs generalizing s with
  | nil => simp [conWriteAll_nil]
  | cons b xs ih => simp only [List.cons_append, conWriteAll_cons, ih, Result.bind_assoc]

/-- A host that still accepts so many bytes accepts them all (R42). -/
theorem conWriteAll_of_room {bytes : List Byte} {s : State} (h : ∀ m, s.console.writesLeft = some m → bytes.length ≤ m) :
    ∃ left, conWriteAll bytes s = .done () (s.accept bytes left) := by
  unfold conWriteAll
  split
  · exact ⟨_, rfl⟩
  · rename_i n hn
    exact ⟨_, if_pos (h n hn)⟩

theorem conWriteAll_unlimited (bytes : List Byte) (s : State) (h : s.console.writesLeft = none) :
    conWriteAll bytes s = .done () (s.accept bytes none) := by
  simp [conWriteAll, h]

/-! ### What a service comes to -/

/-- A state of the host's side, `d`, with the registers, pc and COND that a TRAP taken in `s` has after the link of R7 (R131). -/
def behindLink (s d : State) : State := overlay (trapLink s).regs s.pc s.cond d

@[simp] theorem behindLink_reg (s d : State) (r : Reg) : (behindLink s d).reg r = (trapLink s).reg r := rfl

@[simp] theorem behindLink_pc (s d : State) : (behindLink s d).pc = s.pc := rfl

@[simp] theorem behindLink_cond (s d : State) : (behindLink s d).cond = s.cond := rfl

@[simp] theorem behindLink_status (s d : State) : (behindLink s d).status = d.status := rfl

@[simp] theorem behindLink_config (s d : State) : (behindLink s d).config = d.config := rfl

theorem behindLink_sameHost (s d : State) : SameHost d (behindLink s d) := ⟨fun _ => rfl, rfl⟩

/-- A TRAP whose service is an operation of the host's side comes out as that operation does when run without the link of R7; `leave` is what the
service still does on the core's side. -/
theorem service_follows {α : Type} {op : State → Result α} (hop : HostOp op) (i : Instr) (s : State)
    (leave : α → State → State) {effect : α → State → State → Prop}
    (h : ∀ v d, HostEffects s d → effect v d (leave v (behindLink s d))) :
    Follows (op s) (encode i) s (finish i s ((op (trapLink s)).bind fun v d => .done () (leave v d))) effect := by
  have hop' : op (trapLink s) = (op s).mapState (behindLink s) := hop.overlay _ _ _ s
  rw [hop']
  cases hr : op s with
  | done v d => exact ⟨_, rfl, h v d (hop.effects hr)⟩
  | failed d => exact ⟨_, rfl, raise_faultedFrom _ i s _⟩
  | stuck f => rfl

/-- A state whose registers outside `rs` are those after the link is left as every service leaves it (R131, R140). -/
theorem serviceLeaves_of_trapLink {rs : List Reg} {s t : State} (h7 : 7#3 ∉ rs) (hreg : ∀ r, r ∉ rs → t.reg r = (trapLink s).reg r)
    (hstatus : t.status = s.status) (hconfig : t.config = s.config) : ServiceLeaves rs s t := by
  refine ⟨?_, ?_, hstatus, hconfig⟩
  · simp [hreg _ h7, trapLink_reg]
  · intro r hr
    rw [List.mem_cons, not_or] at hr
    simp [hreg r hr.2, trapLink_reg, hr.1]

theorem nothingReceived_behindLink {s d : State} (h : HostEffects s d) : NothingReceived s (behindLink s d) :=
  ⟨rfl, rfl, serviceLeaves_of_trapLink (by simp) (fun _ _ => rfl) h.status h.config⟩

theorem condSetFrom_of_condAfter {v : Word} {s t : State} (h : t.cond = condAfter v s.cond) : CondSetFrom v s t := by
  unfold CondSetFrom
  rw [h]
  exact setcc_condSetFrom v s

theorem receivedByte_behindLink (b : Byte) {s d : State} (h : HostEffects s d) :
    ReceivedByte b s (receiveByte b (behindLink s d)) := by
  refine ⟨by simp, fun hcc => ?_, fun hcc => by simp [h.config, hcc], rfl, ?_⟩
  · rw [receiveByte_reg, if_pos rfl]
    exact condSetFrom_of_condAfter (by simp [h.config, hcc])
  · refine serviceLeaves_of_trapLink (by decide) (fun r hr => ?_) h.status h.config
    rw [receiveByte_reg, if_neg (by simpa using hr), behindLink_reg]

/-- A service that only asks the host: OUT, PUTS and PUTSP. -/
theorem HostOp.follows_nothingReceived {op : State → Result Unit} (hop : HostOp op) (i : Instr) (s : State) :
    Follows (op s) (encode i) s (finish i s (op (trapLink s))) (fun _ d t => NothingReceived s t ∧ SameHost d t) := by
  rw [← Result.bind_done_unit (op (trapLink s))]
  exact service_follows hop i s (fun _ d => d) fun _ d h => ⟨nothingReceived_behindLink h, behindLink_sameHost s d⟩

/-- A service that receives a byte: GETC and IN. -/
theorem HostOp.follows_receivedByte {op : State → Result Byte} (hop : HostOp op) (i : Instr) (s : State) :
    Follows (op s) (encode i) s (finish i s ((op (trapLink s)).bind fun b d => .done () (receiveByte b d)))
      (fun b d t => ReceivedByte b s t ∧ SameHost d t) :=
  service_follows hop i s receiveByte fun b d h => ⟨receivedByte_behindLink b h, behindLink_sameHost s d⟩

/-- What `SameHost` says of a state that goes on from some accepted bytes. -/
theorem SameHost.of_accept {s t : State} {bytes : List Byte} {left : Option Nat} (h : SameHost (s.accept bytes left) t) :
    (∀ a, t.word a = s.word a) ∧ t.console.pending = s.console.pending ∧ t.console.output = s.console.output ++ bytes := by
  obtain ⟨hword, hconsole⟩ := h
  exact ⟨hword, by rw [hconsole]; rfl, by rw [hconsole]; rfl⟩

/-- An outcome that goes as some writes go is a next state wherever the host accepts them all. -/
theorem Follows.writes_complete {bytes : List Byte} {w : Word} {s s0 : State} {o : Host.Outcome State Fault Refusal}
    {effect : Unit → State → State → Prop} (hf : Follows (conWriteAll bytes s) w s0 o effect)
    (h : ∀ m, s.console.writesLeft = some m → bytes.length ≤ m) : ∃ left t, o = .next t ∧ effect () (s.accept bytes left) t := by
  obtain ⟨left, hall⟩ := conWriteAll_of_room h
  rw [hall] at hf
  exact ⟨left, hf⟩

/-! ### GETC and OUT -/

theorem exec_trapGetc (ign : BitVec 4) (s : State) :
    exec (.trapGetc ign) s = finish (.trapGetc ign) s ((conRead (trapLink s)).bind fun b d => .done () (receiveByte b d)) := rfl

theorem exec_trapGetc_follows (ign : BitVec 4) (s : State) :
    Follows (conRead s) (encode (.trapGetc ign)) s (exec (.trapGetc ign) s) (fun b d t => ReceivedByte b s t ∧ SameHost d t) := by
  rw [exec_trapGetc]
  exact hostOp_conRead.follows_receivedByte _ s

/-- A byte that is the host's next answer is the one read (R41). -/
theorem conRead_of_byte {s : State} {b : Byte} {rest : List HostAnswer} (h : s.console.pending = .byte b :: rest) :
    conRead s = .done b (s.setPending rest) := by
  rw [conRead, h, awaitByte]

/-- Settles O31: GETC follows its blocking read, which completes on a byte that is the next answer. -/
theorem getcReceivesOneByte : Obligations.GetcReceivesOneByte := by
  intro ign s
  have hf := exec_trapGetc_follows ign s
  refine ⟨hf, fun b rest hp => ?_⟩
  rw [conRead_of_byte hp] at hf
  exact hf

theorem exec_trapOut (ign : BitVec 4) (s : State) :
    exec (.trapOut ign) s = finish (.trapOut ign) s (conWrite (lowByte (s.reg 0#3)) (trapLink s)) := by
  rw [← trapLink_reg_zero s]
  rfl

theorem exec_trapOut_follows (ign : BitVec 4) (s : State) :
    Follows (conWrite (lowByte (s.reg 0#3)) s) (encode (.trapOut ign)) s (exec (.trapOut ign) s)
      (fun _ d t => NothingReceived s t ∧ SameHost d t) := by
  rw [exec_trapOut]
  exact (hostOp_conWrite _).follows_nothingReceived _ s

/-- Settles O32: OUT follows its write, a list of one byte, which a host with room for a byte accepts. -/
theorem outWritesTheLowByte : Obligations.OutWritesTheLowByte := by
  intro ign s
  have hf := exec_trapOut_follows ign s
  refine ⟨hf, fun hroom => ?_⟩
  rw [← conWriteAll_singleton] at hf
  obtain ⟨left, t, ht, hn, hh⟩ := hf.writes_complete (fun m hm => by
    have hm0 : m ≠ 0 := fun h0 => hroom (h0 ▸ hm)
    exact Nat.pos_of_ne_zero hm0)
  obtain ⟨hword, hpending, houtput⟩ := hh.of_accept
  exact ⟨t, ht, hn, hpending, houtput, hword⟩

/-! ### IN -/

/-- What IN asks of the host, with this prompt and with or without the echo (R135). -/
def promptReadEcho (prompt : List Byte) (echo : Bool) (s : State) : Result Byte :=
  (conWriteAll prompt s).bind fun _ s1 =>
    (conRead s1).bind fun b s2 => (conWriteAll (if echo then [b] else []) s2).bind fun _ s3 => .done b s3

theorem hostOp_promptReadEcho (prompt : List Byte) (echo : Bool) : HostOp (promptReadEcho prompt echo) :=
  (hostOp_conWriteAll prompt).bind fun _ => hostOp_conRead.bind fun _ => (hostOp_conWriteAll _).bind fun _ => hostOp_done _

theorem exec_trapIn (ign : BitVec 4) (s : State) :
    exec (.trapIn ign) s = finish (.trapIn ign) s
      ((promptReadEcho s.config.inPrompt s.config.inEcho (trapLink s)).bind fun b d => .done () (receiveByte b d)) := by
  simp only [promptReadEcho, Result.bind_assoc, Result.bind_done]
  rfl

theorem exec_trapIn_follows (ign : BitVec 4) (s : State) :
    Follows (promptReadEcho s.config.inPrompt s.config.inEcho s) (encode (.trapIn ign)) s (exec (.trapIn ign) s)
      (fun b d t => ReceivedByte b s t ∧ SameHost d t) := by
  rw [exec_trapIn]
  exact (hostOp_promptReadEcho _ _).follows_receivedByte _ s

/-- The echo as the spec writes it. -/
theorem promptReadEcho_eq (prompt : List Byte) (echo : Bool) (s : State) :
    promptReadEcho prompt echo s = (writeBytes prompt s).bind fun _ s1 => (conRead s1).bind fun b s2 =>
      if echo then (conWrite b s2).bind fun _ s3 => .done b s3 else .done b s2 := by
  rw [promptReadEcho, writeBytes_eq_conWriteAll]
  cases echo <;> simp [conWriteAll_nil, conWriteAll_singleton]

/-- A host that accepts every byte and answers with a byte lets IN come to that byte. -/
theorem promptReadEcho_unlimited {prompt : List Byte} {echo : Bool} {s : State} {b : Byte} {rest : List HostAnswer}
    (hw : s.console.writesLeft = none) (hp : s.console.pending = .byte b :: rest) :
    promptReadEcho prompt echo s =
      .done b (((s.accept prompt none).setPending rest).accept (if echo then [b] else []) none) := by
  have hread : conRead (s.accept prompt none) = .done b ((s.accept prompt none).setPending rest) := conRead_of_byte hp
  rw [promptReadEcho, conWriteAll_unlimited _ _ hw, Result.bind_done, hread, Result.bind_done,
    conWriteAll_unlimited _ _ rfl, Result.bind_done]

/-- Settles O35: IN follows `promptReadEcho`, its three operations one after the other. -/
theorem inPromptsReadsAndEchoes : Obligations.InPromptsReadsAndEchoes := by
  intro ign s
  have hf := exec_trapIn_follows ign s
  refine ⟨by rwa [promptReadEcho_eq] at hf, fun b rest hw hp => ?_⟩
  rw [promptReadEcho_unlimited hw hp] at hf
  obtain ⟨t, ht, hb, hword, hconsole⟩ := hf
  exact ⟨t, ht, hb, hword, by rw [hconsole]; rfl, by rw [hconsole]; rfl⟩

/-! ### HALT -/

theorem exec_trapHalt (ign : BitVec 4) (s : State) :
    exec (.trapHalt ign) s = finish (.trapHalt ign) s
      ((conWriteAll s.config.haltBanner (trapLink s)).bind fun _ d => .done () (d.setPc d.config.haltPc)) := rfl

theorem exec_trapHalt_follows (ign : BitVec 4) (s : State) :
    Follows (conWriteAll s.config.haltBanner s) (encode (.trapHalt ign)) s (exec (.trapHalt ign) s)
      (fun _ d t => t.pc = s.config.haltPc ∧ t.cond = s.cond ∧ ServiceLeaves [] s t ∧ SameHost d t) := by
  rw [exec_trapHalt]
  exact service_follows (hostOp_conWriteAll _) _ s (fun _ d => d.setPc d.config.haltPc) fun _ d h =>
    ⟨congrArg Config.Params.haltPc h.config, rfl,
      serviceLeaves_of_trapLink (by simp) (fun _ _ => rfl) h.status h.config, behindLink_sameHost s d⟩

/-- A running machine at its sentinel takes no step (R20, R184). -/
theorem step_halted {s : State} (hs : s.status = .running) (hpc : s.pc = s.config.haltPc) : step s = .fault .halted := by
  simp [step, noStep, hs, hpc]

/-- Settles O38: HALT follows the writes of its banner, and the pc and status it leaves are those of a halted machine. -/
theorem haltForcesTheSentinel : Obligations.HaltForcesTheSentinel := by
  intro ign s
  have hf := exec_trapHalt_follows ign s
  refine ⟨by rwa [writeBytes_eq_conWriteAll], fun hroom => ?_⟩
  obtain ⟨left, t, ht, hpc, hcond, hl, hh⟩ := hf.writes_complete hroom
  obtain ⟨hword, hpending, houtput⟩ := hh.of_accept
  refine ⟨t, ht, hpc, hcond, hl, hword, hpending, houtput, fun hrun => ?_⟩
  obtain ⟨_, _, hstatus, hconfig⟩ := hl
  exact step_halted (hstatus.trans hrun) (by rw [hpc, hconfig])

/-! ### PUTS and PUTSP as loops -/

theorem exec_trapPuts (ign : BitVec 4) (s : State) :
    exec (.trapPuts ign) s = finish (.trapPuts ign) s (scanString emitPuts (scanFuel s) (s.reg 0#3) (trapLink s)) := by
  rw [← trapLink_reg_zero s]
  rfl

theorem exec_trapPutsp (ign : BitVec 4) (s : State) :
    exec (.trapPutsp ign) s = finish (.trapPutsp ign) s (scanString emitPutsp (scanFuel s) (s.reg 0#3) (trapLink s)) := by
  rw [← trapLink_reg_zero s]
  rfl

theorem exec_trapPuts_follows (ign : BitVec 4) (s : State) :
    Follows (scanString emitPuts (scanFuel s) (s.reg 0#3) s) (encode (.trapPuts ign)) s (exec (.trapPuts ign) s)
      (fun _ d t => NothingReceived s t ∧ SameHost d t) := by
  rw [exec_trapPuts]
  exact (emitPuts_laws.hostOp_scanString _ _).follows_nothingReceived _ s

theorem exec_trapPutsp_follows (ign : BitVec 4) (s : State) :
    Follows (scanString emitPutsp (scanFuel s) (s.reg 0#3) s) (encode (.trapPutsp ign)) s (exec (.trapPutsp ign) s)
      (fun _ d t => NothingReceived s t ∧ SameHost d t) := by
  rw [exec_trapPutsp]
  exact (emitPutsp_laws.hostOp_scanString _ _).follows_nothingReceived _ s

/-- Settles O34: PUTS follows its scan, and the scan is the loop (`scan_puts`). -/
theorem putsRunsTheLoopToItsEnd : Obligations.PutsRunsTheLoopToItsEnd := by
  intro ign s
  obtain ⟨hends, hnever⟩ := scan_puts (s.reg 0#3) s
  have hf := exec_trapPuts_follows ign s
  refine ⟨fun r hr => ?_, fun hr => ?_⟩
  · rwa [hends r hr] at hf
  · rwa [hnever hr] at hf

/-- Settles O37: PUTSP follows its scan, and the scan is the loop (`scan_putsp`). -/
theorem putspRunsTheLoopToItsEnd : Obligations.PutspRunsTheLoopToItsEnd := by
  intro ign s
  obtain ⟨hends, hnever, hspec⟩ := scan_putsp (s.reg 0#3) s
  have hf := exec_trapPutsp_follows ign s
  refine ⟨fun r hr => ?_, fun hr => ?_, hspec⟩
  · rwa [hends r hr] at hf
  · rwa [hnever hr] at hf

/-! ### PUTS and PUTSP as lists of writes -/

/-- The characters PUTS writes of a word (R134). -/
def putsChars (w : Word) : List Byte := if w = 0x0000#16 then [] else [lowByte w]

/-- The characters PUTSP writes of a word (R136). -/
def putspChars (w : Word) : List Byte :=
  if w = 0x0000#16 then [] else if highByte w = 0x00#8 then [lowByte w] else [lowByte w, highByte w]

theorem emitPuts_eq (w : Word) (s : State) :
    emitPuts w s = (conWriteAll (putsChars w) s).bind fun _ d => .done (decide (w ≠ 0x0000#16)) d := by
  by_cases hw : w = 0x0000#16
  · simp [emitPuts, putsChars, hw, conWriteAll_nil]
  · simp [emitPuts, putsChars, hw, conWriteAll_singleton]

theorem emitPutsp_eq (w : Word) (s : State) :
    emitPutsp w s = (conWriteAll (putspChars w) s).bind fun _ d =>
      .done (decide (w ≠ 0x0000#16) && decide (highByte w ≠ 0x00#8)) d := by
  by_cases hw : w = 0x0000#16
  · simp [emitPutsp, putspChars, hw, conWriteAll_nil]
  · by_cases hh : highByte w = 0x00#8
    · simp [emitPutsp, putspChars, hw, hh, conWriteAll_singleton]
    · simp [emitPutsp, putspChars, hw, hh, conWriteAll_cons, conWriteAll_nil, Result.bind_assoc]

/-- Away from KBSR, a string of `n` words that let a scan go on and a last one that stops it. -/
structure StringAt (more : Word → Bool) (n : Nat) (a : Word) (s : State) : Prop where
  goesOn : ∀ k, k < n → more (s.word (a + BitVec.ofNat 16 k)) = true
  stops : more (s.word (a + BitVec.ofNat 16 n)) = false
  plain : ∀ k, k ≤ n → a + BitVec.ofNat 16 k ≠ s.config.kbsrAddr

/-- The characters of such a string, that of the last word included. -/
def stringChars (chars : Word → List Byte) (n : Nat) (a : Word) (s : State) : List Byte :=
  (List.range (n + 1)).flatMap fun k => chars (s.word (a + BitVec.ofNat 16 k))

theorem next_add_ofNat (a : Word) (k : Nat) : a + 1#16 + BitVec.ofNat 16 k = a + BitVec.ofNat 16 (k + 1) := by
  rw [Nat.add_comm k 1, BitVec.ofNat_add, BitVec.add_assoc]

theorem StringAt.head_plain {more : Word → Bool} {n : Nat} {a : Word} {s : State} (h : StringAt more n a s) :
    a ≠ s.config.kbsrAddr := by
  simpa using h.plain 0 (Nat.zero_le n)

theorem StringAt.tail {more : Word → Bool} {n : Nat} {a : Word} {s : State} (h : StringAt more (n + 1) a s)
    (bytes : List Byte) (left : Option Nat) : StringAt more n (a + 1#16) (s.accept bytes left) where
  goesOn k hk := by rw [next_add_ofNat]; exact h.goesOn (k + 1) (by omega)
  stops := by rw [next_add_ofNat]; exact h.stops
  plain k hk := by rw [next_add_ofNat]; exact h.plain (k + 1) (by omega)

theorem stringChars_succ (chars : Word → List Byte) (n : Nat) (a : Word) (s : State) (bytes : List Byte) (left : Option Nat) :
    stringChars chars (n + 1) a s = chars (s.word a) ++ stringChars chars n (a + 1#16) (s.accept bytes left) := by
  simp [stringChars, List.range_succ_eq_map (n := n + 1), List.flatMap_map, next_add_ofNat]

section
variable {emit : Word → State → Result Bool} {more : Word → Bool} {chars : Word → List Byte}
  (hemit : ∀ w s, emit w s = (conWriteAll (chars w) s).bind fun _ d => .done (more w) d)
include hemit

/-- One word of a scan, read away from KBSR. -/
theorem scanString_plain (k : Nat) {a : Word} {s : State} (h : a ≠ s.config.kbsrAddr) :
    scanString emit (k + 1) a s = (conWriteAll (chars (s.word a)) s).bind fun _ d =>
      if more (s.word a) then scanString emit k (a + 1#16) d else .done () d := by
  rw [scanString, memRead_plain s a h, Result.bind_done, hemit, Result.bind_assoc]
  rfl

/-- A scan of a string is one list of writes. -/
theorem StringAt.scanString_eq {n : Nat} {a : Word} {s : State} (h : StringAt more n a s) :
    scanString emit (n + 1) a s = conWriteAll (stringChars chars n a s) s := by
  induction n generalizing a s with
  | zero =>
    have hstop : more (s.word a) = false := by simpa using h.stops
    simp [scanString_plain hemit 0 h.head_plain, hstop, stringChars]
  | succ n ih =>
    have hgo : more (s.word a) = true := by simpa using h.goesOn 0 (Nat.succ_pos n)
    rw [scanString_plain hemit (n + 1) h.head_plain, hgo]
    rcases conWriteAll_cases (chars (s.word a)) s with ⟨left, hw⟩ | ⟨m, left, hw⟩
    · rw [stringChars_succ chars n a s (chars (s.word a)) left, conWriteAll_append, hw]
      exact ih (h.tail _ left)
    · rw [stringChars_succ chars n a s [] left, conWriteAll_append, hw]
      rfl

/-- The count of a service is long enough for it. -/
theorem StringAt.scanFuel_eq (L : EmitLaws emit more) {n : Nat} {a : Word} {s : State} (h : StringAt more n a s) :
    scanString emit (scanFuel s) a s = conWriteAll (stringChars chars n a s) s := by
  have hscan := h.scanString_eq hemit
  have hends : ScanEnds emit (n + 1) a s := by
    rw [ScanEnds, hscan]
    rcases conWriteAll_cases (stringChars chars n a s) s with ⟨left, hw⟩ | ⟨m, left, hw⟩ <;> simp [hw]
  rw [scanString_fuel L hends, hscan]

end

theorem stringChars_puts {n : Nat} {a : Word} {s : State} (hne : ∀ k, k < n → s.word (a + BitVec.ofNat 16 k) ≠ 0x0000#16)
    (hz : s.word (a + BitVec.ofNat 16 n) = 0x0000#16) :
    stringChars putsChars n a s = (List.range n).map fun k => lowByte (s.word (a + BitVec.ofNat 16 k)) := by
  have hchars : ∀ k ∈ List.range n,
      putsChars (s.word (a + BitVec.ofNat 16 k)) = [lowByte (s.word (a + BitVec.ofNat 16 k))] :=
    fun k hk => if_neg (hne k (List.mem_range.mp hk))
  rw [stringChars, List.range_succ, List.flatMap_append, List.flatMap_congr hchars, ← List.map_eq_flatMap]
  simp [putsChars, hz]

theorem highByte_zero : highByte 0x0000#16 = 0x00#8 := rfl

theorem stringChars_putsp {n : Nat} {a : Word} {s : State}
    (hne : ∀ k, k < n → highByte (s.word (a + BitVec.ofNat 16 k)) ≠ 0x00#8)
    (hz : highByte (s.word (a + BitVec.ofNat 16 n)) = 0x00#8) :
    stringChars putspChars n a s =
      ((List.range n).flatMap fun k =>
        [lowByte (s.word (a + BitVec.ofNat 16 k)), highByte (s.word (a + BitVec.ofNat 16 k))]) ++
      if s.word (a + BitVec.ofNat 16 n) = 0x0000#16 then [] else [lowByte (s.word (a + BitVec.ofNat 16 n))] := by
  have hchars : ∀ k ∈ List.range n, putspChars (s.word (a + BitVec.ofNat 16 k)) =
      [lowByte (s.word (a + BitVec.ofNat 16 k)), highByte (s.word (a + BitVec.ofNat 16 k))] := fun k hk => by
    have hhigh := hne k (List.mem_range.mp hk)
    have hword : s.word (a + BitVec.ofNat 16 k) ≠ 0x0000#16 := fun h0 => hhigh (by rw [h0, highByte_zero])
    rw [putspChars, if_neg hword, if_neg hhigh]
  rw [stringChars, List.range_succ, List.flatMap_append, List.flatMap_congr hchars]
  simp [putspChars, hz]

/-- Settles O33: the scan is the list of writes of the low bytes. -/
theorem putsWritesTheString : Obligations.PutsWritesTheString := by
  intro ign s n _ hne hz hplain hroom
  have hstring : StringAt (fun w => decide (w ≠ 0x0000#16)) n (s.reg 0#3) s :=
    ⟨fun k hk => decide_eq_true (hne k hk), decide_eq_false (not_not_intro hz), hplain⟩
  have hf := exec_trapPuts_follows ign s
  rw [hstring.scanFuel_eq emitPuts_eq emitPuts_laws, stringChars_puts hne hz] at hf
  obtain ⟨left, t, ht, hn, hh⟩ := hf.writes_complete (by simpa using hroom)
  obtain ⟨hword, hpending, houtput⟩ := hh.of_accept
  exact ⟨t, ht, hn, hword, hpending, houtput⟩

/-- Settles O36: the scan is the list of writes of the packed bytes. A zero word has a zero high byte, so the high byte alone says where it stops. -/
theorem putspWritesThePackedString : Obligations.PutspWritesThePackedString := by
  intro ign s n _ hne hz hplain hw
  have hmore : ∀ w : Word, (decide (w ≠ 0x0000#16) && decide (highByte w ≠ 0x00#8)) = decide (highByte w ≠ 0x00#8) := by
    intro w
    by_cases h0 : w = 0x0000#16 <;> simp [h0, highByte_zero]
  have hstring : StringAt (fun w => decide (w ≠ 0x0000#16) && decide (highByte w ≠ 0x00#8)) n (s.reg 0#3) s :=
    ⟨fun k hk => (hmore _).trans (decide_eq_true (hne k hk)), (hmore _).trans (decide_eq_false (not_not_intro hz)), hplain⟩
  have hf := exec_trapPutsp_follows ign s
  rw [hstring.scanFuel_eq emitPutsp_eq emitPutsp_laws, stringChars_putsp hne hz] at hf
  obtain ⟨left, t, ht, hn, hh⟩ := hf.writes_complete (by simp [hw])
  obtain ⟨hword, hpending, houtput⟩ := hh.of_accept
  exact ⟨t, ht, hn, hword, hpending, by rw [houtput, List.append_assoc]; rfl⟩

end Sys2Proof.Machine
end

section
/-! PROOFS of the family machine state (spec/10_state.md R27, R42): O7 and O13.
Both say that every instruction keeps something: bits 15:3 of COND, and the bytes already written. A transitive relation that every single operation of
the machine keeps is kept by every instruction and every step (`EveryOpKeeps.exec_next`, `EveryOpKeeps.step_next`); each obligation is then a relation
looked at operation by operation. -/

namespace Sys2Proof.Machine

/-! ### What an operation leaves when it completes or fails -/

/-- Every state a result holds, complete or failed, is one of these. -/
def Result.Leaves {α : Type} (P : State → Prop) : Result α → Prop
  | .done _ t => P t
  | .failed t => P t
  | .stuck _ => True

theorem Result.Leaves.mono {α : Type} {P Q : State → Prop} (hPQ : ∀ t, P t → Q t) {r : Result α} (h : r.Leaves P) :
    r.Leaves Q := by
  cases r with
  | done v t => exact hPQ t h
  | failed t => exact hPQ t h
  | stuck f => trivial

theorem Result.Leaves.bind {α β : Type} {P : State → Prop} {r : Result α} {f : α → State → Result β} (h : r.Leaves P)
    (hf : ∀ v d, P d → (f v d).Leaves P) : (r.bind f).Leaves P := by
  cases r with
  | done v d => exact hf v d h
  | failed d => exact h
  | stuck w => trivial

theorem memRead_leaves (a : Word) (s : State) : (memRead a s).Leaves (HostEffects s) := by
  cases h : memRead a s with
  | done v t => exact (memRead_done h).1
  | failed t => exact (memRead_failed h).1
  | stuck f => trivial

theorem conRead_leaves (s : State) : (conRead s).Leaves (HostEffects s) := by
  cases h : conRead s with
  | done b t => exact (conRead_done h).1
  | failed t => exact (conRead_failed h).1
  | stuck f => trivial

theorem conWriteAll_leaves (bytes : List Byte) (s : State) : (conWriteAll bytes s).Leaves (HostEffects s) := by
  cases h : conWriteAll bytes s with
  | done u t => exact (conWriteAll_done h).1
  | failed t => exact (conWriteAll_failed h).1
  | stuck f => trivial

theorem conWrite_leaves (b : Byte) (s : State) : (conWrite b s).Leaves (HostEffects s) := by
  rw [← conWriteAll_singleton]
  exact conWriteAll_leaves [b] s

theorem EmitLaws.scanString_leaves {emit : Word → State → Result Bool} {more : Word → Bool} (L : EmitLaws emit more) (k : Nat)
    (a : Word) (s : State) : (scanString emit k a s).Leaves (HostEffects s) := by
  cases h : scanString emit k a s with
  | done u t => exact scanString_effects L k a s t (.inl h)
  | failed t => exact scanString_effects L k a s t (.inr h)
  | stuck f => trivial

/-! ### What every instruction and every step keeps -/

/-- A transitive relation that holds from a state to the one any single operation leaves: a read, poll or console primitive, a write of a register,
the pc, the flags or memory, and a fault taken from what the instruction had come to. -/
structure EveryOpKeeps (R : State → State → Prop) : Prop where
  trans : ∀ {s t u}, R s t → R t u → R s u
  host : ∀ {s t}, HostEffects s t → R s t
  reg : ∀ s r v, R s (s.setReg r v)
  pc : ∀ s v, R s (s.setPc v)
  flags : ∀ s v, R s (setcc v s)
  mem : ∀ s a v, R s (memWrite a v s)
  fault : ∀ {s d} kind ipc w, R s d → R s (takeFault kind ipc w s d)

/-- If the outcome is a next state, it is one of these. -/
def NextIn (P : State → Prop) (o : Host.Outcome State Fault Refusal) : Prop := ∀ t, o = .next t → P t

theorem nextIn_next {P : State → Prop} {t : State} (h : P t) : NextIn P (.next t) := by
  intro u hu
  cases hu
  exact h

theorem nextIn_fault (P : State → Prop) (f : Fault) : NextIn P (.fault f) := fun _ ht => nomatch ht

section
variable {R : State → State → Prop} (K : EveryOpKeeps R)
include K

theorem EveryOpKeeps.refl (s : State) : R s s := K.host (.refl s)

/-- An operation of the host's side, after what the instruction has come to so far. -/
theorem EveryOpKeeps.after {α : Type} {s d : State} {r : Result α} (h : R s d) (hr : r.Leaves (HostEffects d)) :
    r.Leaves (R s) :=
  hr.mono fun _ he => K.trans h (K.host he)

theorem EveryOpKeeps.writeResult_keeps (dr : Reg) (v : Word) (s : State) : R s (writeResult dr v s) :=
  K.trans (K.reg s dr v) (K.flags _ v)

theorem EveryOpKeeps.linkR7_keeps (s : State) : R s (linkR7 s) := K.reg s _ _

theorem EveryOpKeeps.trapLink_keeps (s : State) : R s (trapLink s) := K.reg s _ _

theorem EveryOpKeeps.setccIfTrapSets_keeps (v : Word) (s : State) : R s (setccIfTrapSets v s) := by
  unfold setccIfTrapSets
  split
  · exact K.flags s v
  · exact K.refl s

theorem EveryOpKeeps.receiveByte_keeps (b : Byte) (s : State) : R s (receiveByte b s) :=
  K.trans (K.reg s 0#3 (zext b)) (K.setccIfTrapSets_keeps _ _)

theorem EveryOpKeeps.loadResult_leaves (dr : Reg) (ea : Word) {s d : State} (h : R s d) : (loadResult dr ea d).Leaves (R s) :=
  (K.after h (memRead_leaves ea d)).bind fun v _ he => K.trans he (K.writeResult_keeps dr v _)

theorem EveryOpKeeps.raise_next (kind : ErrorKind) (i : Instr) (s : State) : NextIn (R s) (.next (raise kind i s s)) :=
  nextIn_next (K.fault kind _ _ (K.refl s))

/-- An instruction that ends as its operations do. -/
theorem EveryOpKeeps.finish_next (i : Instr) {s : State} {r : Result Unit} (h : r.Leaves (R s)) : NextIn (R s) (finish i s r) := by
  cases r with
  | done u d => exact nextIn_next h
  | failed d => exact nextIn_next (K.fault _ _ _ h)
  | stuck f => exact nextIn_fault _ f

/-- No instruction needs more than its operations: each arm is their composition. -/
theorem EveryOpKeeps.exec_next (i : Instr) (s : State) : NextIn (R s) (exec i s) := by
  have hlink : R s (trapLink s) := K.trapLink_keeps s
  cases i with
  | addReg | addImm | andReg | andImm | not | lea => exact nextIn_next (K.writeResult_keeps _ _ s)
  | ld | ldr => exact K.finish_next _ (K.loadResult_leaves _ _ (K.refl s))
  | ldi => exact K.finish_next _ ((K.after (K.refl s) (memRead_leaves _ s)).bind fun ea _ h => K.loadResult_leaves _ ea h)
  | st | str => exact nextIn_next (K.mem s _ _)
  | sti => exact K.finish_next _ ((K.after (K.refl s) (memRead_leaves _ s)).bind fun ea d h => K.trans h (K.mem d ea _))
  | br | jmp => exact nextIn_next (K.pc s _)
  | jsr | jsrr => exact nextIn_next (K.trans (K.linkR7_keeps s) (K.pc _ _))
  | trapGetc =>
    exact K.finish_next _ ((K.after hlink (conRead_leaves _)).bind fun b d h => K.trans h (K.receiveByte_keeps b d))
  | trapOut => exact K.finish_next _ (K.after hlink (conWrite_leaves _ _))
  | trapPuts => exact K.finish_next _ (K.after hlink (emitPuts_laws.scanString_leaves _ _ _))
  | trapIn =>
    exact K.finish_next _ ((K.after hlink (conWriteAll_leaves _ _)).bind fun _ _ h =>
      (K.after h (conRead_leaves _)).bind fun b _ h =>
        (K.after h (conWriteAll_leaves _ _)).bind fun _ d h => K.trans h (K.receiveByte_keeps b d))
  | trapPutsp => exact K.finish_next _ (K.after hlink (emitPutsp_laws.scanString_leaves _ _ _))
  | trapHalt => exact K.finish_next _ ((K.after hlink (conWriteAll_leaves _ _)).bind fun _ d h => K.trans h (K.pc d _))
  | trapUnknown | op8 | reserved => exact K.raise_next _ _ s

theorem EveryOpKeeps.fetch_leaves (s : State) : (fetch s).Leaves (R s) :=
  (K.after (K.refl s) (memRead_leaves s.pc s)).bind fun _ d h => K.trans h (K.pc d _)

theorem EveryOpKeeps.step_next (s : State) : NextIn (R s) (step s) := by
  have hfetch := K.fetch_leaves s
  unfold step
  split
  · exact nextIn_fault _ _
  · split
    case h_1 w d hd =>
      rw [hd] at hfetch
      exact fun t ht => K.trans hfetch (K.exec_next (decode w) d t ht)
    case h_2 d hd =>
      rw [hd] at hfetch
      exact nextIn_next (K.fault _ _ _ hfetch)
    case h_3 f _ => exact nextIn_fault _ f

end

/-! ### Bits 15:3 of COND -/

/-- COND[15:3] is as before. -/
def SameReserved (s t : State) : Prop := t.cond.extractLsb' 3 13 = s.cond.extractLsb' 3 13

theorem sameReserved_of_cond {s t : State} (h : t.cond = s.cond) : SameReserved s t :=
  congrArg (BitVec.extractLsb' 3 13) h

/-- Only setcc writes COND at all, and it masks bits 15:3 (R27). -/
theorem everyOpKeeps_sameReserved : EveryOpKeeps SameReserved where
  trans h k := Eq.trans k h
  host h := sameReserved_of_cond h.cond
  reg s r v := sameReserved_of_cond (setReg_cond s r v)
  pc s v := sameReserved_of_cond (setPc_cond s v)
  flags s v := condAfter_reserved v s.cond
  mem s a v := sameReserved_of_cond (memWrite_cond s a v)
  fault kind ipc w _ := sameReserved_of_cond (takeFault_cond kind ipc w _ _)

theorem setcc_sameBut (v : Word) (s : State) : SameBut [] [] s s (setcc v s) :=
  ⟨fun r _ => setcc_reg s v r, fun _ _ => rfl, setcc_console s v, setcc_status s v, setcc_config s v⟩

/-- Settles O7: the flags of setcc are a law of the model, and keeping COND[15:3] goes through every operation. -/
theorem setccSetsOneFlag : Obligations.SetccSetsOneFlag :=
  ⟨fun v s => ⟨setcc_condSetFrom v s, setcc_sameBut v s, setcc_pc s v⟩,
    fun i s t h => everyOpKeeps_sameReserved.exec_next i s t h⟩

/-! ### The output stream -/

/-- The later output begins with the output so far. -/
def OutputGrows (s t : State) : Prop := s.console.output <+: t.console.output

theorem outputGrows_of_console {s t : State} (h : t.console = s.console) : OutputGrows s t := by
  rw [OutputGrows, h]

/-- Only the host's side touches the output, where it grows, and a fault leaves the console as the instruction had brought it (R164). -/
theorem everyOpKeeps_outputGrows : EveryOpKeeps OutputGrows where
  trans h k := List.IsPrefix.trans h k
  host h := h.output
  reg s r v := outputGrows_of_console (setReg_console s r v)
  pc s v := outputGrows_of_console (setPc_console s v)
  flags s v := outputGrows_of_console (setcc_console s v)
  mem s a v := outputGrows_of_console (memWrite_console s a v)
  fault _ _ _ h := h

/-- Settles O13: one write appends or fails (`conWrite_cases`), and growing goes through every operation. -/
theorem outputOnlyGrows : Obligations.OutputOnlyGrows := by
  refine ⟨fun b s => ?_, fun s t h => everyOpKeeps_outputGrows.step_next s t h⟩
  rcases conWrite_cases b s with ⟨left, h⟩ | h
  · exact .inl ⟨_, h, rfl⟩
  · exact .inr h

end Sys2Proof.Machine
end

section
/-! PROOFS of the family memory (spec/20_memory.md R50, R53): O8 and O9.
A read of KBSR is a poll and then the cell (`memRead_kbsr`), any other read is plain (`memRead_plain`); a store is one write of stored memory
(`word_memWrite`), whatever its address. -/

namespace Sys2Proof.Machine

/-- Settles O8: a read away from KBSR is plain, and a read of KBSR goes as its poll goes. -/
theorem readPollsOnlyTheStatusCell : Obligations.ReadPollsOnlyTheStatusCell := by
  refine ⟨rfl, fun a s => ⟨memRead_plain s a, fun ha => ?_⟩⟩
  subst ha
  rw [memRead_kbsr]
  cases kbsrPoll s with
  | done _ d => exact Result.bind_done _ d _
  | failed d => exact Result.bind_failed d _
  | stuck f => exact Result.bind_stuck f _

theorem word_memWrite_self (s : State) (a v : Word) : (memWrite a v s).word a = v :=
  (word_memWrite s a a v).trans (if_pos rfl)

theorem word_memWrite_of_ne (s : State) (a b v : Word) (h : b ≠ a) : (memWrite a v s).word b = s.word b :=
  (word_memWrite s a b v).trans (if_neg h)

/-- The frame of a store (R53). -/
theorem memWrite_sameBut (a v : Word) (s : State) : SameBut [] [a] s s (memWrite a v s) :=
  ⟨fun r _ => memWrite_reg s a v r, fun b hb => word_memWrite_of_ne s a b v (List.ne_of_not_mem_cons hb),
    memWrite_console s a v, memWrite_status s a v, memWrite_config s a v⟩

/-- Settles O9: the written cell, the frame of a store, and the two fields the frame leaves open. -/
theorem writeIsPlainEverywhere : Obligations.WriteIsPlainEverywhere := by
  intro a v s
  exact ⟨word_memWrite_self s a v, memWrite_sameBut a v s, memWrite_pc s a v, memWrite_cond s a v⟩

end Sys2Proof.Machine
end

section
/-! PROOFS of the family operate (spec/40_operate.md R100 to R107): O14 to O18.
Every operate instruction is one `writeResult` of a word computed from the old registers, so its flags and its frame are those of `writeResult`
(`writeResult_leaves`), whichever registers coincide (R107); what is left to each is the value of that word. -/

namespace Sys2Proof.Machine

/-! ### What writing a result leaves -/

theorem writeResult_reg_self (s : State) (dr : Reg) (v : Word) : (writeResult dr v s).reg dr = v :=
  (writeResult_reg s dr v dr).trans (if_pos rfl)

theorem writeResult_reg_of_ne (s : State) (dr r : Reg) (v : Word) (h : r ≠ dr) : (writeResult dr v s).reg r = s.reg r :=
  (writeResult_reg s dr v r).trans (if_neg h)

theorem writeResult_sameBut (dr : Reg) (v : Word) (s : State) : SameBut [dr] [] s s (writeResult dr v s) :=
  ⟨fun r hr => writeResult_reg_of_ne s dr r v (List.ne_of_not_mem_cons hr), fun a _ => writeResult_word s dr v a,
    writeResult_console s dr v, writeResult_status s dr v, writeResult_config s dr v⟩

/-- The flags come from the destination, and nothing but it and COND is written (R28). -/
theorem writeResult_leaves (dr : Reg) (v : Word) (s : State) :
    CondSetFrom ((writeResult dr v s).reg dr) s (writeResult dr v s) ∧ (writeResult dr v s).pc = s.pc ∧
      SameBut [dr] [] s s (writeResult dr v s) := by
  rw [writeResult_reg_self]
  exact ⟨condSetFrom_of_condAfter (writeResult_cond s dr v), writeResult_pc s dr v, writeResult_sameBut dr v s⟩

/-! ### The meanings -/

theorem exec_addReg (dr sr1 sr2 : Reg) (ign : BitVec 2) (s : State) :
    exec (.addReg dr sr1 ign sr2) s = .next (writeResult dr (s.reg sr1 + s.reg sr2) s) := rfl

theorem exec_addImm (dr sr1 : Reg) (imm5 : BitVec 5) (s : State) :
    exec (.addImm dr sr1 imm5) s = .next (writeResult dr (s.reg sr1 + sext imm5) s) := rfl

theorem exec_andReg (dr sr1 sr2 : Reg) (ign : BitVec 2) (s : State) :
    exec (.andReg dr sr1 ign sr2) s = .next (writeResult dr (s.reg sr1 &&& s.reg sr2) s) := rfl

theorem exec_andImm (dr sr1 : Reg) (imm5 : BitVec 5) (s : State) :
    exec (.andImm dr sr1 imm5) s = .next (writeResult dr (s.reg sr1 &&& sext imm5) s) := rfl

theorem exec_not (dr sr : Reg) (ign : BitVec 6) (s : State) :
    exec (.not dr sr ign) s = .next (writeResult dr (s.reg sr ^^^ 0xFFFF#16) s) := rfl

/-! ### The obligations -/

/-- Settles O14: addition of words is addition modulo 65536 (R11). -/
theorem addRegisterAddsModulo : Obligations.AddRegisterAddsModulo := by
  intro dr sr1 sr2 ign s
  refine ⟨_, exec_addReg dr sr1 sr2 ign s, ?_, writeResult_leaves dr _ s⟩
  rw [writeResult_reg_self]
  exact BitVec.toNat_add (s.reg sr1) (s.reg sr2)

/-- Settles O15: as O14, the second source being the extended immediate. -/
theorem addImmediateAddsTheExtendedField : Obligations.AddImmediateAddsTheExtendedField := by
  intro dr sr1 imm5 s
  refine ⟨_, exec_addImm dr sr1 imm5 s, ?_, writeResult_leaves dr _ s⟩
  rw [writeResult_reg_self]
  exact BitVec.toNat_add (s.reg sr1) (sext imm5)

/-- Settles O16: `&&&` is the and of each pair of bits. -/
theorem andRegisterIsBitwise : Obligations.AndRegisterIsBitwise := by
  intro dr sr1 sr2 ign s
  refine ⟨_, exec_andReg dr sr1 sr2 ign s, fun k => ?_, writeResult_leaves dr _ s⟩
  rw [writeResult_reg_self]
  exact BitVec.getLsbD_and

/-- Settles O17: as O16, the second source being the extended immediate. -/
theorem andImmediateIsBitwise : Obligations.AndImmediateIsBitwise := by
  intro dr sr1 imm5 s
  refine ⟨_, exec_andImm dr sr1 imm5 s, fun k => ?_, writeResult_leaves dr _ s⟩
  rw [writeResult_reg_self]
  exact BitVec.getLsbD_and

/-- R104's exclusive or with 0xFFFF is the complement of every bit. -/
theorem xor_0xFFFF (a : Word) : a ^^^ 0xFFFF#16 = ~~~a :=
  BitVec.xor_allOnes

/-- Settles O18: the complement of a word is 65535 less the word. -/
theorem notComplementsEveryBit : Obligations.NotComplementsEveryBit := by
  intro dr sr ign s
  refine ⟨_, exec_not dr sr ign s, ?_, writeResult_leaves dr _ s⟩
  rw [writeResult_reg_self, xor_0xFFFF]
  exact BitVec.toNat_not

end Sys2Proof.Machine
end

section
/-! PROOFS of the family data move (spec/41_data_move.md R110 to R118): O22, O23 and O25.
LEA is one `writeResult` of an address, so it ends as every operate instruction does (`writeResult_leaves`); ST and STR are one `memWrite` each,
and differ in the address only (`memWrite_leaves`). None of the three reads memory, so none of them polls. -/

namespace Sys2Proof.Machine

/-! ### What a store leaves -/

/-- The written cell holds the word, and nothing else changes, at the keyboard cells too (R53, R118). -/
theorem memWrite_leaves (a v : Word) (s : State) :
    (memWrite a v s).word a = v ∧ (memWrite a v s).cond = s.cond ∧ (memWrite a v s).pc = s.pc ∧
      SameBut [] [a] s s (memWrite a v s) :=
  ⟨word_memWrite_self s a v, memWrite_cond s a v, memWrite_pc s a v, memWrite_sameBut a v s⟩

/-! ### The meanings -/

theorem exec_lea (dr : Reg) (off9 : BitVec 9) (s : State) :
    exec (.lea dr off9) s = .next (writeResult dr (s.pc + sext off9) s) := rfl

theorem exec_st (sr : Reg) (off9 : BitVec 9) (s : State) :
    exec (.st sr off9) s = .next (memWrite (s.pc + sext off9) (s.reg sr) s) := rfl

theorem exec_str (sr baseR : Reg) (off6 : BitVec 6) (s : State) :
    exec (.str sr baseR off6) s = .next (memWrite (s.reg baseR + sext off6) (s.reg sr) s) := rfl

/-! ### The obligations -/

/-- Settles O22: the result written is the address, a sum of words, which is a sum modulo 65536 (R11). -/
theorem leaWritesTheAddress : Obligations.LeaWritesTheAddress := by
  intro dr off9 s
  refine ⟨_, exec_lea dr off9 s, ?_, writeResult_leaves dr _ s⟩
  rw [writeResult_reg_self]
  exact BitVec.toNat_add s.pc (sext off9)

/-- Settles O23: ST is one store at the PC-relative address. -/
theorem stStoresAtThePcRelativeAddress : Obligations.StStoresAtThePcRelativeAddress :=
  fun sr off9 s => ⟨_, exec_st sr off9 s, memWrite_leaves _ _ s⟩

/-- Settles O25: STR is one store at the based address. -/
theorem strStoresAtTheBasedAddress : Obligations.StrStoresAtTheBasedAddress :=
  fun sr baseR off6 s => ⟨_, exec_str sr baseR off6 s, memWrite_leaves _ _ s⟩

end Sys2Proof.Machine
end

section
/-! PROOFS of the family control transfer (spec/42_control.md R120, R122 to R124): O26, O28, O29 and O30.
Each instruction is one `setPc`, which no frame sees (`SameBut.setPc`); JSR and JSRR write R7 first, which is the whole of their frame
(`linkR7_sameBut`). What is left to each is the new pc, and to BR its test (`branchTaken_iff`). -/

namespace Sys2Proof.Machine

/-! ### What a jump and a link leave -/

theorem SameBut.refl (s : State) : SameBut [] [] s s s :=
  ⟨fun _ _ => rfl, fun _ _ => rfl, rfl, rfl, rfl⟩

/-- No frame looks at the pc. -/
theorem SameBut.setPc {rs : List Reg} {as : List Word} {s d t : State} (h : SameBut rs as s d t) (v : Word) :
    SameBut rs as s d (t.setPc v) := h

theorem linkR7_reg_self (s : State) : (linkR7 s).reg 7#3 = s.pc :=
  (linkR7_reg s 7#3).trans (if_pos rfl)

theorem linkR7_reg_of_ne (s : State) (r : Reg) (h : r ≠ 7#3) : (linkR7 s).reg r = s.reg r :=
  (linkR7_reg s r).trans (if_neg h)

theorem linkR7_sameBut (s : State) : SameBut [7#3] [] s s (linkR7 s) :=
  ⟨fun r hr => linkR7_reg_of_ne s r (List.ne_of_not_mem_cons hr), fun a _ => linkR7_word s a, linkR7_console s,
    linkR7_status s, linkR7_config s⟩

/-! ### The branch test -/

theorem and_ne_zero_iff_shared_bit {w : Nat} (x y : BitVec w) :
    x &&& y ≠ 0#w ↔ ∃ k, k < w ∧ x.getLsbD k = true ∧ y.getLsbD k = true := by
  rw [ne_eq, BitVec.eq_of_getLsbD_eq_iff]
  simp

/-- Bits 2:0 of COND are bits 2:0 of the condition codes (R27). -/
theorem condCodes_getLsbD (s : State) {k : Nat} (hk : k < 3) : (condCodes s).getLsbD k = s.cond.getLsbD k := by
  simp [condCodes, hk]

/-- The test of R82 as a shared bit. -/
theorem branchTaken_iff (nzp : BitVec 3) (s : State) :
    branchTaken nzp s = true ↔ ∃ k, k < 3 ∧ nzp.getLsbD k = true ∧ s.cond.getLsbD k = true := by
  have hcodes : branchTaken nzp s = true ↔ nzp &&& condCodes s ≠ 0#3 := bne_iff_ne
  rw [hcodes, and_ne_zero_iff_shared_bit]
  exact exists_congr fun k => and_congr_right fun hk => by rw [condCodes_getLsbD s hk]

/-! ### The meanings -/

theorem exec_br (nzp : BitVec 3) (off9 : BitVec 9) (s : State) :
    exec (.br nzp off9) s = .next (s.setPc (if branchTaken nzp s then s.pc + sext off9 else s.pc)) := rfl

theorem exec_jmp (ignHi : BitVec 3) (baseR : Reg) (ignLo : BitVec 6) (s : State) :
    exec (.jmp ignHi baseR ignLo) s = .next (s.setPc (s.reg baseR)) := rfl

theorem exec_jsr (off11 : BitVec 11) (s : State) :
    exec (.jsr off11) s = .next ((linkR7 s).setPc (s.pc + sext off11)) := rfl

theorem exec_jsrr (ignHi : BitVec 2) (baseR : Reg) (ignLo : BitVec 6) (s : State) :
    exec (.jsrr ignHi baseR ignLo) s = .next ((linkR7 s).setPc ((linkR7 s).reg baseR)) := rfl

/-! ### The obligations -/

/-- Settles O26: the new pc follows the branch test, and the test is a shared bit. -/
theorem brBranchesOnASharedBit : Obligations.BrBranchesOnASharedBit := by
  intro nzp off9 s
  refine ⟨_, exec_br nzp off9 s, ?_, setPc_cond s _, (SameBut.refl s).setPc _⟩
  rw [setPc_pc, apply_ite BitVec.toNat, BitVec.toNat_add]
  exact if_congr (branchTaken_iff nzp s) rfl rfl

/-- Settles O28: JMP is one `setPc`. -/
theorem jmpGoesToTheBase : Obligations.JmpGoesToTheBase :=
  fun ignHi baseR ignLo s =>
    ⟨_, exec_jmp ignHi baseR ignLo s, setPc_pc s _, setPc_cond s _, (SameBut.refl s).setPc _⟩

/-- Settles O29: the target is a sum of words, which is a sum modulo 65536 (R11). -/
theorem jsrLinksAndGoesRelative : Obligations.JsrLinksAndGoesRelative :=
  fun off11 s =>
    ⟨_, exec_jsr off11 s, linkR7_reg_self s, BitVec.toNat_add s.pc (sext off11), linkR7_cond s, (linkR7_sameBut s).setPc _⟩

/-- Settles O30: the base is read behind the link, where R7 holds the return address and every other register its old value. -/
theorem jsrrLinksBeforeItReadsTheBase : Obligations.JsrrLinksBeforeItReadsTheBase := by
  intro ignHi baseR ignLo s
  refine ⟨_, exec_jsrr ignHi baseR ignLo s, linkR7_reg_self s, linkR7_reg_of_ne s baseR, ?_, linkR7_cond s, (linkR7_sameBut s).setPc _⟩
  rintro rfl
  exact linkR7_reg_self s

end Sys2Proof.Machine
end

section
/-! PROOFS of the family image loading (spec/70_reset_and_hazards.md R181, R182): O56.
Both recursions are followed by one index: word `i` of the bytes is bytes `2i` and `2i + 1` (`wordsOfBytes_getElem?`), and word `i` of a stored list stays in
the cell `i` above its first address unless a later word has come round to it (`storeWords_word_at`). -/

namespace Sys2Proof.Machine

/-! ### Words of bytes -/

theorem wordOfBytes_toNat (hi lo : Byte) : (wordOfBytes hi lo).toNat = 256 * hi.toNat + lo.toNat := by
  rw [wordOfBytes, BitVec.toNat_append, ← Nat.shiftLeft_add_eq_or_of_lt lo.isLt, Nat.shiftLeft_eq, Nat.mul_comm]

theorem wordsOfBytes_length (bytes : List Byte) : (wordsOfBytes bytes).length = bytes.length / 2 := by
  induction bytes using wordsOfBytes.induct with
  | case1 hi lo rest ih => simp only [wordsOfBytes, List.length_cons, ih]; omega
  | case2 b => simp [wordsOfBytes]
  | case3 => rfl

/-- R181: the words are pairs of bytes, high byte first. -/
theorem wordsOfBytes_getElem? {bytes : List Byte} {i : Nat} (hlt : 2 * i + 1 < bytes.length) :
    (wordsOfBytes bytes)[i]? = some (wordOfBytes (bytes.getD (2 * i) 0#8) (bytes.getD (2 * i + 1) 0#8)) := by
  induction bytes using wordsOfBytes.induct generalizing i with
  | case1 high low rest ih =>
    cases i with
    | zero => rfl
    | succ j => exact ih (by simp only [List.length_cons] at hlt; omega)
  | case2 b => simp at hlt
  | case3 => simp at hlt

/-! ### Words stored one after another -/

/-- Storing words changes nothing but memory. -/
theorem storeWords_eq_withMem (a : Word) (ws : List Word) (s : State) : ∃ m, storeWords a ws s = { s with mem := m } := by
  induction ws generalizing a s with
  | nil => exact ⟨s.mem, rfl⟩
  | cons w rest ih => exact ih (a + 1#16) (memWrite a w s)

theorem storeWords_word_of_ne {a b : Word} {ws : List Word} {s : State} (h : ∀ i, i < ws.length → b ≠ a + BitVec.ofNat 16 i) :
    (storeWords a ws s).word b = s.word b := by
  induction ws generalizing a s with
  | nil => rfl
  | cons w rest ih =>
    have hrest : ∀ i, i < rest.length → b ≠ a + 1#16 + BitVec.ofNat 16 i := fun i hi => by
      rw [next_add_ofNat]
      exact h (i + 1) (Nat.succ_lt_succ hi)
    have hfirst : b ≠ a := by simpa using h 0 (Nat.zero_lt_succ _)
    exact (ih hrest).trans (word_memWrite_of_ne s a b w hfirst)

/-- An address is not met again before 65536 steps. -/
theorem ne_add_ofNat (a : Word) {k : Nat} (h0 : 0 < k) (hk : k < 65536) : a ≠ a + BitVec.ofNat 16 k := by
  intro heq
  have hzero : BitVec.ofNat 16 k = 0#16 := left_eq_add.mp heq
  have := congrArg BitVec.toNat hzero
  rw [BitVec.toNat_ofNat, Nat.mod_eq_of_lt hk] at this
  exact h0.ne' this

/-- R182: word `i` is `i` above the first address, if it is the last word for that cell. -/
theorem storeWords_word_at {a w : Word} {ws : List Word} {i : Nat} {s : State} (hw : ws[i]? = some w) (hlast : ws.length ≤ i + 65536) :
    (storeWords a ws s).word (a + BitVec.ofNat 16 i) = w := by
  induction ws generalizing a i s with
  | nil => simp at hw
  | cons first rest ih =>
    rw [List.length_cons] at hlast
    cases i with
    | zero =>
      obtain rfl : first = w := Option.some.inj hw
      have hleft : ∀ j, j < rest.length → a ≠ a + 1#16 + BitVec.ofNat 16 j := fun j hj => by
        rw [next_add_ofNat]
        exact ne_add_ofNat a (Nat.succ_pos j) (by omega)
      rw [BitVec.add_zero]
      exact (storeWords_word_of_ne hleft).trans (word_memWrite_self s a first)
    | succ j =>
      rw [← next_add_ofNat]
      exact ih hw (by omega)

/-! ### The loader -/

theorem loadImage_odd {bytes : List Byte} (h : bytes.length % 2 = 1) (s : State) :
    loadImage (some bytes) s = .error .imageMalformed := if_pos h

theorem loadImage_even (hi lo : Byte) {rest : List Byte} (h : rest.length % 2 = 0) (s : State) :
    loadImage (some (hi :: lo :: rest)) s =
      .ok ((storeWords (wordOfBytes hi lo) (wordsOfBytes rest) s).setPc (wordOfBytes hi lo)) :=
  if_neg (by simp only [List.length_cons]; omega)

/-- Settles O56: an odd image is malformed, and the words of any other are stored one after another from the origin on. -/
theorem loaderPlacesTheImage : Obligations.LoaderPlacesTheImage := by
  refine ⟨fun s bytes h => loadImage_odd h s, ?_⟩
  rintro s (_ | ⟨hi, _ | ⟨lo, rest⟩⟩) n hn <;> simp only [List.length_nil, List.length_cons] at hn
  · omega
  · omega
  have hwords : (wordsOfBytes rest).length = n := by rw [wordsOfBytes_length]; omega
  obtain ⟨m, hm⟩ := storeWords_eq_withMem (wordOfBytes hi lo) (wordsOfBytes rest) s
  refine ⟨_, loadImage_even hi lo (by omega) s, wordOfBytes_toNat hi lo, fun i hlt hlast => ?_, fun a ha => ?_, ?_⟩
  · rw [setPc_word, setPc_pc, storeWords_word_at (wordsOfBytes_getElem? (by omega)) (hwords.trans_le hlast)]
    exact wordOfBytes_toNat ..
  · exact storeWords_word_of_ne (hwords.symm ▸ ha)
  · rw [hm]
    exact ⟨fun _ _ => rfl, rfl, rfl, rfl, rfl⟩

end Sys2Proof.Machine
end

section
/-! PROOFS of the family other, the encoding (spec/30_encoding.md R70 to R85): O1 to O5.
An instruction's word carries its opcode (`opcode_encode`), which chooses the branch of `decode`, and each field is read where `encode` has put it; the other way
round, a word is its fields side by side, format by format (`word_pc9` and its like). A row of the opcode table asks a word for its opcode and at most one
more field (`rowSelects_iff`), so the table is looked at with those four fields only (`askingRows`). -/

namespace Sys2Proof

open Laws.Opcode (number)

/-! ### Words as numbers -/

theorem append_toNat {m n : Nat} (x : BitVec m) (y : BitVec n) : (x ++ y).toNat = x.toNat * 2 ^ n + y.toNat := by
  rw [BitVec.toNat_append, ← Nat.shiftLeft_add_eq_or_of_lt y.isLt, Nat.shiftLeft_eq]

theorem field_toNat (w : Word) (lo n : Nat) : (field w lo n).toNat = w.toNat / 2 ^ lo % 2 ^ n := by
  rw [field, BitVec.extractLsb'_toNat, Nat.shiftRight_eq_div_pow]

theorem opcode_toNat (w : Word) : (opcode w).toNat = w.toNat / 4096 := by
  rw [opcode, field_toNat]
  omega

/-- Settles O4: side by side means one power of two further up for each bit to the right. -/
theorem fieldsStandAtTheirPlaces : Obligations.FieldsStandAtTheirPlaces := by
  intro i
  cases i <;> simp only [encode, append_toNat, BitVec.toNat_ofNat] <;> omega

/-- The word of every instruction carries its opcode (R73). -/
theorem opcode_encode (i : Instr) : opcode (encode i) = number i := by
  apply BitVec.eq_of_toNat_eq
  rw [opcode_toNat, fieldsStandAtTheirPlaces]
  cases i <;> simp only [number, BitVec.toNat_ofNat] <;> omega

/-! ### Decoding what was encoded -/

theorem mem_serviceVectors_iff (v : BitVec 8) :
    v ∈ serviceVectors ↔ v = 0x20#8 ∨ v = 0x21#8 ∨ v = 0x22#8 ∨ v = 0x23#8 ∨ v = 0x24#8 ∨ v = 0x25#8 := by
  simp [serviceVectors]

theorem wf_trapUnknown (ign : BitVec 4) (vec8 : BitVec 8) : (Instr.trapUnknown ign vec8).wf = true ↔ vec8 ∉ serviceVectors := by
  simp [Instr.wf]

theorem decodeTrap_of_not_service {ign : BitVec 4} {vec8 : BitVec 8} (h : vec8 ∉ serviceVectors) :
    decodeTrap ign vec8 = .trapUnknown ign vec8 := by
  simp only [mem_serviceVectors_iff, not_or] at h
  simp [decodeTrap, h]

/-- The opcode chooses the branch of `decode`, and each field is read back where it was put. -/
theorem decode_encode {i : Instr} (h : i.wf = true) : decode (encode i) = i := by
  cases i with
  | trapUnknown ign vec8 =>
    have hv := (wf_trapUnknown ign vec8).mp h
    simp only [decode, opcode_encode, number, BitVec.reduceEq, ↓reduceIte]
    simp (disch := decide) only [encode, field, BitVec.extractLsb'_append_eq_of_le, BitVec.extractLsb'_append_eq_of_add_le]
    simp [decodeTrap_of_not_service hv]
  | _ =>
    simp only [decode, opcode_encode, number, BitVec.reduceEq, ↓reduceIte]
    simp (disch := decide) only [encode, field, BitVec.extractLsb'_append_eq_of_le, BitVec.extractLsb'_append_eq_of_add_le]
    simp [decodeTrap]

/-- Settles O2, by `decode_encode`. -/
theorem decodeOfEncodeIsTheInstruction : Obligations.DecodeOfEncodeIsTheInstruction :=
  fun _ h => decode_encode h

/-! ### Encoding what was decoded -/

theorem opcode_values (o : BitVec 4) :
    o = 0b0000#4 ∨ o = 0b0001#4 ∨ o = 0b0010#4 ∨ o = 0b0011#4 ∨ o = 0b0100#4 ∨ o = 0b0101#4 ∨ o = 0b0110#4 ∨ o = 0b0111#4 ∨
    o = 0b1000#4 ∨ o = 0b1001#4 ∨ o = 0b1010#4 ∨ o = 0b1011#4 ∨ o = 0b1100#4 ∨ o = 0b1101#4 ∨ o = 0b1110#4 ∨ o = 0b1111#4 := by
  revert o
  decide

theorem bit_values (b : BitVec 1) : b = 0#1 ∨ b = 1#1 := by
  revert b
  decide

theorem encode_decodeTrap (ign : BitVec 4) (vec8 : BitVec 8) : encode (decodeTrap ign vec8) = 0b1111#4 ++ ign ++ vec8 := by
  unfold decodeTrap
  split_ifs <;> simp only [encode, *]

theorem wf_decodeTrap (ign : BitVec 4) (vec8 : BitVec 8) : (decodeTrap ign vec8).wf = true := by
  by_cases hv : vec8 ∈ serviceVectors
  · rcases (mem_serviceVectors_iff vec8).mp hv with rfl | rfl | rfl | rfl | rfl | rfl <;> rfl
  · rw [decodeTrap_of_not_service hv, wf_trapUnknown]
    exact hv

/-! R75 format by format: a word is its fields side by side. -/

theorem field_append_field (w : Word) {lo hi : Nat} (m n : Nat) (h : hi = lo + n) :
    field w hi m ++ field w lo n = field w lo (m + n) :=
  BitVec.extractLsb'_append_extractLsb'_eq_extractLsb' h

theorem field_all (w : Word) : field w 0 16 = w := BitVec.extractLsb'_eq_self

theorem word_opr (w : Word) : opcode w ++ field w 9 3 ++ field w 6 3 ++ field w 5 1 ++ field w 3 2 ++ field w 0 3 = w := by
  simp (disch := decide) only [opcode, field_append_field]
  exact field_all w

theorem word_opi (w : Word) : opcode w ++ field w 9 3 ++ field w 6 3 ++ field w 5 1 ++ field w 0 5 = w := by
  simp (disch := decide) only [opcode, field_append_field]
  exact field_all w

theorem word_b6 (w : Word) : opcode w ++ field w 9 3 ++ field w 6 3 ++ field w 0 6 = w := by
  simp (disch := decide) only [opcode, field_append_field]
  exact field_all w

theorem word_pc9 (w : Word) : opcode w ++ field w 9 3 ++ field w 0 9 = w := by
  simp (disch := decide) only [opcode, field_append_field]
  exact field_all w

theorem word_jsr (w : Word) : opcode w ++ field w 11 1 ++ field w 0 11 = w := by
  simp (disch := decide) only [opcode, field_append_field]
  exact field_all w

theorem word_jsrr (w : Word) : opcode w ++ field w 11 1 ++ field w 9 2 ++ field w 6 3 ++ field w 0 6 = w := by
  simp (disch := decide) only [opcode, field_append_field]
  exact field_all w

theorem word_trap (w : Word) : opcode w ++ field w 8 4 ++ field w 0 8 = w := by
  simp (disch := decide) only [opcode, field_append_field]
  exact field_all w

theorem word_none (w : Word) : opcode w ++ field w 0 12 = w := by
  simp (disch := decide) only [opcode, field_append_field]
  exact field_all w

/-- The word of the instruction decoded is the fields the decoder has read, side by side. -/
theorem encode_decode (w : Word) : encode (decode w) = w := by
  rcases opcode_values (opcode w) with h | h | h | h | h | h | h | h | h | h | h | h | h | h | h | h <;>
    simp only [decode, h, BitVec.reduceEq, ↓reduceIte]
  · simpa only [encode, h] using word_pc9 w
  · rcases bit_values (field w 5 1) with hb | hb <;> simp only [hb, BitVec.reduceEq, ↓reduceIte]
    · simpa only [encode, h, hb] using word_opr w
    · simpa only [encode, h, hb] using word_opi w
  · simpa only [encode, h] using word_pc9 w
  · simpa only [encode, h] using word_pc9 w
  · rcases bit_values (field w 11 1) with hb | hb <;> simp only [hb, BitVec.reduceEq, ↓reduceIte]
    · simpa only [encode, h, hb] using word_jsrr w
    · simpa only [encode, h, hb] using word_jsr w
  · rcases bit_values (field w 5 1) with hb | hb <;> simp only [hb, BitVec.reduceEq, ↓reduceIte]
    · simpa only [encode, h, hb] using word_opr w
    · simpa only [encode, h, hb] using word_opi w
  · simpa only [encode, h] using word_b6 w
  · simpa only [encode, h] using word_b6 w
  · simpa only [encode, h] using word_none w
  · simpa only [encode, h] using word_b6 w
  · simpa only [encode, h] using word_pc9 w
  · simpa only [encode, h] using word_pc9 w
  · simpa only [encode, h] using word_b6 w
  · simpa only [encode, h] using word_none w
  · simpa only [encode, h] using word_pc9 w
  · simpa only [encode_decodeTrap, h] using word_trap w

theorem decode_wf (w : Word) : (decode w).wf = true := by
  rcases opcode_values (opcode w) with h | h | h | h | h | h | h | h | h | h | h | h | h | h | h | h <;>
    simp only [decode, h, BitVec.reduceEq, ↓reduceIte, wf_decodeTrap, apply_ite Instr.wf]
  all_goals simp only [Instr.wf, ite_self]

/-- Settles O3, by `encode_decode` and `decode_wf`. -/
theorem encodeOfDecodeIsTheWord : Obligations.EncodeOfDecodeIsTheWord :=
  fun w => ⟨encode_decode w, decode_wf w⟩

/-- Settles O1, by evaluating the decoder on the twelve words. -/
theorem decoderReadsTheSpecsWords : Obligations.DecoderReadsTheSpecsWords := by
  unfold Obligations.DecoderReadsTheSpecsWords
  decide

/-! ### The opcode table -/

/-- The word whose bits `lo` to `lo + n - 1` are ones. -/
def fieldMask (lo n : Nat) : Word := (BitVec.allOnes n).setWidth 16 <<< lo

theorem fieldMask_getLsbD (lo n : Nat) {k : Nat} (hk : k < 16) : (fieldMask lo n).getLsbD k = decide (lo ≤ k ∧ k < lo + n) := by
  rw [Bool.eq_iff_iff]
  simp [fieldMask]
  omega

theorem and_fieldMask_iff (w p : Word) {lo n : Nat} (h : lo + n ≤ 16) :
    w &&& fieldMask lo n = p &&& fieldMask lo n ↔ field w lo n = field p lo n := by
  simp only [field, BitVec.eq_of_getLsbD_eq_iff, BitVec.getLsbD_and, BitVec.getLsbD_extractLsb']
  constructor
  · intro hw k hk
    have hbit := hw (lo + k) (by omega)
    simpa [fieldMask_getLsbD lo n (show lo + k < 16 by omega), hk] using hbit
  · intro hf k hk
    rw [fieldMask_getLsbD lo n hk]
    by_cases hin : lo ≤ k ∧ k < lo + n
    · obtain ⟨j, rfl⟩ := Nat.exists_eq_add_of_le hin.1
      have hbit := hf j (by omega)
      simpa [show j < n by omega] using hbit
    · simp [hin]

theorem and_or_iff (w p m1 m2 : Word) :
    w &&& (m1 ||| m2) = p &&& (m1 ||| m2) ↔ w &&& m1 = p &&& m1 ∧ w &&& m2 = p &&& m2 := by
  simp only [BitVec.eq_of_getLsbD_eq_iff, BitVec.getLsbD_and, BitVec.getLsbD_or]
  grind

/-- A row whose fixed bits are the opcode and one more field. -/
theorem rowSelects_iff (r : Row) (w : Word) (lo n : Nat) (hfit : lo + n ≤ 16) (hm : r.mask = fieldMask 12 4 ||| fieldMask lo n)
    (hp : r.pattern &&& r.mask = r.pattern) :
    rowSelects r w = true ↔ opcode w = opcode r.pattern ∧ field w lo n = field r.pattern lo n := by
  rw [rowSelects, beq_iff_eq, ← hp, hm, and_or_iff, and_fieldMask_iff _ _ hfit, and_fieldMask_iff _ _ (by decide), ← hm, hp]
  rfl

/-- Every row of the table fixes the opcode and at most one more field, and no bit of its pattern lies outside its mask. -/
theorem opcodeTable_masks : ∀ r ∈ opcodeTable, r.pattern &&& r.mask = r.pattern ∧
    (r.mask = 0xF000#16 ∨ r.mask = 0xF020#16 ∨ r.mask = 0xF800#16 ∨ r.mask = 0xF0FF#16) := by
  decide

/-- A row's fixed bits compared field by field: the opcode, bit 5, bit 11 and the vector. -/
def rowAsks (op : BitVec 4) (b5 b11 : BitVec 1) (v : BitVec 8) (r : Row) : Bool :=
  op == opcode r.pattern &&
    (r.mask == 0xF000#16 || (r.mask == 0xF020#16 && b5 == field r.pattern 5 1) ||
      (r.mask == 0xF800#16 && b11 == field r.pattern 11 1) || (r.mask == 0xF0FF#16 && v == field r.pattern 0 8))

/-- The table asks a word for these four fields and for nothing else. -/
theorem rowSelects_eq_rowAsks (w : Word) {r : Row} (hr : r ∈ opcodeTable) :
    rowSelects r w = rowAsks (opcode w) (field w 5 1) (field w 11 1) (field w 0 8) r := by
  obtain ⟨hp, hm | hm | hm | hm⟩ := opcodeTable_masks r hr
  · rw [Bool.eq_iff_iff, rowSelects_iff r w 0 0 (by decide) hm hp]
    simp [rowAsks, hm, Subsingleton.elim (field w 0 0) (field r.pattern 0 0)]
  · rw [Bool.eq_iff_iff, rowSelects_iff r w 5 1 (by decide) hm hp]
    simp [rowAsks, hm]
  · rw [Bool.eq_iff_iff, rowSelects_iff r w 11 1 (by decide) hm hp]
    simp [rowAsks, hm]
  · rw [Bool.eq_iff_iff, rowSelects_iff r w 0 8 (by decide) hm hp]
    simp [rowAsks, hm]

/-- The rows of the table whose fixed bits a word has, in order, by name and format. -/
def selectedRows (w : Word) : List (String × String) :=
  (opcodeTable.filter fun r => rowSelects r w).map fun r => (r.mnemonic, r.format)

/-- The rows that fields like these select. -/
def askingRows (op : BitVec 4) (b5 b11 : BitVec 1) (v : BitVec 8) : List (String × String) :=
  (opcodeTable.filter (rowAsks op b5 b11 v)).map fun r => (r.mnemonic, r.format)

theorem selectedRows_eq_askingRows (w : Word) : selectedRows w = askingRows (opcode w) (field w 5 1) (field w 11 1) (field w 0 8) := by
  rw [selectedRows, askingRows, List.filter_congr fun r hr => rowSelects_eq_rowAsks w hr]

theorem askingRows_of_not_service {v : BitVec 8} (h : v ∉ serviceVectors) (b5 b11 : BitVec 1) :
    askingRows 0b1111#4 b5 b11 v = [("TRAP__unknown_vector", "TRAP")] := by
  have hrows : ∀ r ∈ serviceRows, r.mask = 0xF0FF#16 ∧ field r.pattern 0 8 ∈ serviceVectors := by decide
  have hnone : serviceRows.filter (rowAsks 0b1111#4 b5 b11 v) = [] := by
    refine List.filter_eq_nil_iff.mpr fun r hr hasks => h ?_
    obtain ⟨hmask, hvector⟩ := hrows r hr
    obtain ⟨_, hv⟩ : 0b1111#4 = opcode r.pattern ∧ v = field r.pattern 0 8 := by simpa [rowAsks, hmask] using hasks
    rwa [hv]
  rw [askingRows, opcodeTable, List.filter_append, List.filter_append, hnone]
  rfl

theorem askingRows_decodeTrap (b5 b11 : BitVec 1) (ign : BitVec 4) (v : BitVec 8) :
    askingRows 0b1111#4 b5 b11 v = [rowName (decodeTrap ign v)] ∨
    askingRows 0b1111#4 b5 b11 v = [rowName (decodeTrap ign v), ("TRAP__unknown_vector", "TRAP")] := by
  by_cases hv : v ∈ serviceVectors
  · rcases (mem_serviceVectors_iff v).mp hv with rfl | rfl | rfl | rfl | rfl | rfl <;> exact .inr rfl
  · rw [askingRows_of_not_service hv, decodeTrap_of_not_service hv]
    exact .inl rfl

/-- A word selects the row of its instruction, and at most the generic TRAP row behind it. -/
theorem selectedRows_cases (w : Word) : selectedRows w = [rowName (decode w)] ∨
    selectedRows w = [rowName (decode w), ("TRAP__unknown_vector", "TRAP")] := by
  rw [selectedRows_eq_askingRows]
  rcases opcode_values (opcode w) with h | h | h | h | h | h | h | h | h | h | h | h | h | h | h | h <;>
    simp only [decode, h, BitVec.reduceEq, ↓reduceIte]
  · exact .inl rfl
  · rcases bit_values (field w 5 1) with hb | hb <;> rw [hb] <;> exact .inl rfl
  · exact .inl rfl
  · exact .inl rfl
  · rcases bit_values (field w 11 1) with hb | hb <;> rw [hb] <;> exact .inl rfl
  · rcases bit_values (field w 5 1) with hb | hb <;> rw [hb] <;> exact .inl rfl
  iterate 9 · exact .inl rfl
  · exact askingRows_decodeTrap _ _ _ _

/-- Settles O5: the first selected row and all of them are read off the list of the selected rows. -/
theorem everyWordSelectsItsRow : Obligations.EveryWordSelectsItsRow := by
  intro w
  have hrows := selectedRows_cases w
  constructor
  · rw [← List.head?_filter, ← List.head?_map]
    rcases hrows with h | h <;> exact congrArg List.head? h
  · intro r hr hsel
    have hmem : (r.mnemonic, r.format) ∈ selectedRows w :=
      List.mem_map.mpr ⟨r, List.mem_filter.mpr ⟨hr, hsel⟩, rfl⟩
    rcases hrows with h | h <;> rw [h] at hmem
    · exact .inl (List.mem_singleton.mp hmem)
    · exact (List.mem_pair.mp hmem).imp id (congrArg Prod.fst)

end Sys2Proof
end

section
/-! PROOFS of the family other, polls, reads and the instruction cycle (spec/10_state.md R40, R41; spec/20_memory.md R50 to R52, R56, R63; spec/30_encoding.md
R70): O10, O11, O12, O42, O43 and O45.
A poll is one draw of the host's answer and one store of it (`storeAnswer`), under either policy, so what it leaves is what the store leaves
(`storeAnswer_some_leaves`, `storeAnswer_none_leaves`). -/

namespace Sys2Proof.Machine

/-! ### The host's answers in order -/

theorem awaitByte_replicate_notReady (s : State) (k : Nat) (l : List HostAnswer) :
    awaitByte s (List.replicate k .notReady ++ l) = awaitByte s l := by
  induction k with
  | zero => rfl
  | succ k ih => exact ih

/-- A blocking read passes over the answers "not ready". -/
theorem conRead_of_pending {s : State} {k : Nat} {l : List HostAnswer} (h : s.console.pending = List.replicate k .notReady ++ l) :
    conRead s = awaitByte s l := by
  rw [conRead, h, awaitByte_replicate_notReady]

theorem conRead_of_notReady {s : State} {k : Nat} (h : s.console.pending = List.replicate k .notReady) :
    conRead s = awaitByte s [] :=
  conRead_of_pending (by rw [h, List.append_nil])

/-- Settles O12: each clause is one equation of `awaitByte` or of `conPoll`, behind the answers passed over. -/
theorem inputIsAnsweredInOrder : Obligations.InputIsAnsweredInOrder := by
  intro s k b rest
  refine ⟨fun h => conRead_of_pending h, fun h => conRead_of_pending h, fun h he => ?_, fun h he => ?_, fun h he => ?_,
    fun h => ?_, fun h => ?_, fun h => ?_, fun h he => ?_, fun h he => ?_, fun h he => ?_⟩
  iterate 3 · rw [conRead_of_notReady h, awaitByte, he]
  iterate 3 · rw [conPoll, h]
  iterate 3 · rw [conPoll, h, he]

/-! ### What a poll leaves -/

/-- The store of a byte: "ready" in KBSR, the byte in KBDR where that is another cell, and nothing else (R51, D16). -/
theorem storeAnswer_some_leaves (b : Byte) (s : State) :
    (storeAnswer (some b) s).word s.config.kbsrAddr = s.config.kbsrReady ∧
      (s.config.kbdrAddr ≠ s.config.kbsrAddr → ((storeAnswer (some b) s).word s.config.kbdrAddr).toNat = b.toNat) ∧
      SameBut [] [s.config.kbsrAddr, s.config.kbdrAddr] s s (storeAnswer (some b) s) := by
  refine ⟨storeKey_kbsr s b, fun hne => ?_, fun r _ => storeAnswer_reg s _ r, fun a ha => ?_, rfl, rfl, rfl⟩
  · rw [storeAnswer, storeKey_kbdr s b hne, zext_toNat]
  · rw [List.mem_pair, not_or] at ha
    exact storeKey_word_of_ne s b a ha.1 ha.2

/-- The store of no byte: "not ready" in KBSR, and nothing else (R51). -/
theorem storeAnswer_none_leaves (s : State) :
    (storeAnswer none s).word s.config.kbsrAddr = s.config.kbsrNotReady ∧
      SameBut [] [s.config.kbsrAddr] s s (storeAnswer none s) :=
  ⟨clearKey_kbsr s, fun r _ => storeAnswer_reg s none r, fun a ha => clearKey_word_of_ne s a (List.ne_of_not_mem_cons ha), rfl, rfl, rfl⟩

theorem kbsrPoll_nonBlocking {s : State} (h : s.config.kbPolicy = .nonBlocking) :
    kbsrPoll s = (conPoll s).bind fun answer d => .done () (storeAnswer answer d) := by
  rw [kbsrPoll, h]

theorem kbsrPoll_blocking {s : State} (h : s.config.kbPolicy = .blocking) :
    kbsrPoll s = (conRead s).bind fun b d => .done () (storeAnswer (some b) d) := by
  rw [kbsrPoll, h]

/-- Settles O10: the poll's store follows the answer drawn. -/
theorem nonBlockingPollStoresTheAnswer : Obligations.NonBlockingPollStoresTheAnswer := by
  intro s hpolicy
  rw [kbsrPoll_nonBlocking hpolicy]
  rcases conPoll_cases s with ⟨_ | b, l, h⟩ | ⟨l, h⟩ <;> rw [h]
  · obtain ⟨hkbsr, hsame⟩ := storeAnswer_none_leaves (s.setPending l)
    exact ⟨_, rfl, hkbsr, hsame, rfl, rfl⟩
  · obtain ⟨hkbsr, hkbdr, hsame⟩ := storeAnswer_some_leaves b (s.setPending l)
    exact ⟨_, rfl, hkbsr, hkbdr, hsame, rfl, rfl⟩
  · exact ⟨rfl, fun a => setPending_word s l a⟩

/-- Settles O11: the poll's store follows the byte waited for. -/
theorem blockingPollWaitsForAByte : Obligations.BlockingPollWaitsForAByte := by
  intro s hpolicy
  rw [kbsrPoll_blocking hpolicy]
  rcases conRead_cases s with ⟨b, l, h⟩ | ⟨l, h⟩ | h <;> rw [h]
  · obtain ⟨hkbsr, hkbdr, hsame⟩ := storeAnswer_some_leaves b (s.setPending l)
    exact ⟨_, rfl, hkbsr, hkbdr, hsame, rfl, rfl⟩
  · exact ⟨rfl, fun a => setPending_word s l a⟩
  · rfl

/-! ### A poll does not look at memory -/

theorem conPoll_memWrite (a v : Word) (s : State) : conPoll (memWrite a v s) = (conPoll s).mapState (memWrite a v) := by
  unfold conPoll
  rw [memWrite_console]
  split <;> try rfl
  split <;> rfl

theorem awaitByte_memWrite (a v : Word) (s : State) (l : List HostAnswer) :
    awaitByte (memWrite a v s) l = (awaitByte s l).mapState (memWrite a v) := by
  induction l with
  | nil =>
    unfold awaitByte
    rw [memWrite_console]
    split <;> rfl
  | cons x l ih =>
    cases x with
    | byte b => rfl
    | notReady => exact ih
    | failure => rfl

theorem conRead_memWrite (a v : Word) (s : State) : conRead (memWrite a v s) = (conRead s).mapState (memWrite a v) :=
  awaitByte_memWrite a v s _

/-- The store of an answer overwrites KBSR, whatever stood there. -/
theorem storeAnswer_memWrite_kbsr (answer : Option Byte) (v : Word) (s : State) (a : Word) :
    (storeAnswer answer (memWrite s.config.kbsrAddr v s)).word a = (storeAnswer answer s).word a := by
  cases answer with
  | some b =>
    simp only [storeAnswer, storeKey, memWrite, word_setWord, setWord_config]
    split_ifs <;> rfl
  | none =>
    simp only [storeAnswer, clearKey, memWrite, word_setWord, setWord_config]
    split_ifs <;> rfl

/-- What a poll asks the host for, under either policy (R51, R52). -/
def drawAnswer (s : State) : Result (Option Byte) :=
  match s.config.kbPolicy with
  | .nonBlocking => conPoll s
  | .blocking => (conRead s).bind fun b d => .done (some b) d

theorem kbsrPoll_eq_drawAnswer (s : State) : kbsrPoll s = (drawAnswer s).bind fun answer d => .done () (storeAnswer answer d) := by
  unfold drawAnswer
  cases h : s.config.kbPolicy with
  | nonBlocking => exact kbsrPoll_nonBlocking h
  | blocking => rw [kbsrPoll_blocking h, Result.bind_assoc]; rfl

theorem drawAnswer_memWrite (a v : Word) (s : State) : drawAnswer (memWrite a v s) = (drawAnswer s).mapState (memWrite a v) := by
  unfold drawAnswer
  rw [memWrite_config]
  cases s.config.kbPolicy with
  | nonBlocking => exact conPoll_memWrite a v s
  | blocking =>
    rw [conRead_memWrite]
    exact Result.mapState_bind _ _ _ _ fun _ _ => rfl

theorem drawAnswer_config {s d : State} {answer : Option Byte} (h : drawAnswer s = .done answer d) : d.config = s.config := by
  unfold drawAnswer at h
  split at h
  · rcases conPoll_cases s with ⟨_, l, hp⟩ | ⟨l, hp⟩ <;> rw [hp] at h <;> cases h
    rfl
  · rcases conRead_cases s with ⟨_, l, hr⟩ | ⟨l, hr⟩ | hr <;> rw [hr] at h <;> cases h
    rfl

/-- A poll after a store to KBSR that completes leaves the memory and the console of the poll without the store. -/
theorem kbsrPoll_memWrite_kbsr {v : Word} {s d : State} (h : kbsrPoll (memWrite s.config.kbsrAddr v s) = .done () d) :
    ∃ e, kbsrPoll s = .done () e ∧ d.console = e.console ∧ ∀ a, d.word a = e.word a := by
  rw [kbsrPoll_eq_drawAnswer, drawAnswer_memWrite] at h
  cases hdraw : drawAnswer s with
  | done answer c =>
    rw [hdraw] at h
    cases h
    rw [kbsrPoll_eq_drawAnswer, hdraw, ← drawAnswer_config hdraw]
    exact ⟨_, rfl, by simp only [storeAnswer_console, memWrite_console], storeAnswer_memWrite_kbsr answer v c⟩
  | failed c => rw [hdraw] at h; cases h
  | stuck f => rw [hdraw] at h; cases h

/-- Settles O45: the read of KBSR is a poll and then the cell, and the poll leaves the cell the same. -/
theorem storeToTheStatusCellIsNeverReadBack : Obligations.StoreToTheStatusCellIsNeverReadBack := by
  intro v x s d h
  have hread : memRead s.config.kbsrAddr (memWrite s.config.kbsrAddr v s) =
      (kbsrPoll (memWrite s.config.kbsrAddr v s)).bind fun _ c => .done (c.word s.config.kbsrAddr) c :=
    memRead_kbsr (memWrite s.config.kbsrAddr v s)
  rw [hread] at h
  obtain ⟨_, c, hpoll, hdone⟩ := Result.bind_eq_done h
  cases hdone
  obtain ⟨e, he, hconsole, hword⟩ := kbsrPoll_memWrite_kbsr hpoll
  refine ⟨e, ?_, hconsole, hword⟩
  rw [memRead_kbsr, he, Result.bind_done, hword]

/-! ### The instruction cycle -/

theorem noStep_of_running {s : State} (hrun : s.status = .running) (hpc : s.pc ≠ s.config.haltPc) : noStep s = none := by
  simp [noStep, hrun, hpc]

theorem step_of_read_done {s d : State} {w : Word} (hrun : s.status = .running) (hpc : s.pc ≠ s.config.haltPc)
    (h : memRead s.pc s = .done w d) : step s = exec (decode w) (d.setPc (s.pc + 1#16)) := by
  simp only [step, noStep_of_running hrun hpc, fetch, h, Result.bind_done]

theorem step_of_read_failed {s d : State} (hrun : s.status = .running) (hpc : s.pc ≠ s.config.haltPc)
    (h : memRead s.pc s = .failed d) : step s = .next (fetchFault s d) := by
  simp only [step, noStep_of_running hrun hpc, fetch, h, Result.bind_failed]

theorem step_of_read_stuck {s : State} {f : Fault} (hrun : s.status = .running) (hpc : s.pc ≠ s.config.haltPc)
    (h : memRead s.pc s = .stuck f) : step s = .fault f := by
  simp only [step, noStep_of_running hrun hpc, fetch, h, Result.bind_stuck]

/-- A faulted machine takes no step (R33, R165). -/
theorem step_stopped {s : State} {record : FaultRecord} (h : s.status = .faulted record) : step s = .fault (.stopped record) := by
  simp [step, noStep, h]

/-- A step has a next state in two ways only: by the instruction fetched, or by the fault of a failed fetch. -/
theorem step_next_cases {s t : State} (h : step s = .next t) :
    s.status = .running ∧ s.pc ≠ s.config.haltPc ∧
      ((∃ w d, memRead s.pc s = .done w d ∧ exec (decode w) (d.setPc (s.pc + 1#16)) = .next t) ∨
        ∃ d, memRead s.pc s = .failed d ∧ t = fetchFault s d) := by
  cases hrun : s.status with
  | faulted record => rw [step_stopped hrun] at h; cases h
  | running =>
    by_cases hpc : s.pc = s.config.haltPc
    · rw [step_halted hrun hpc] at h; cases h
    refine ⟨rfl, hpc, ?_⟩
    cases hr : memRead s.pc s with
    | done w d => exact .inl ⟨w, d, rfl, by rwa [step_of_read_done hrun hpc hr] at h⟩
    | failed d => rw [step_of_read_failed hrun hpc hr] at h; cases h; exact .inr ⟨d, rfl, rfl⟩
    | stuck f => rw [step_of_read_stuck hrun hpc hr] at h; cases h

/-- Settles O42: one equation of `step` for each way the fetch can go, and the two that bar a step. -/
theorem stepRunsTheDecodedInstruction : Obligations.StepRunsTheDecodedInstruction := by
  intro s
  refine ⟨fun hrun hpc => ?_, step_halted, fun _ => step_stopped⟩
  cases hr : memRead s.pc s with
  | done w d => exact step_of_read_done hrun hpc hr
  | failed d =>
    have hword : ∀ a, d.word a = s.word a := fun a => congrArg (fun m => Memory.read m a.toNat) (memRead_failed hr).2
    exact ⟨_, step_of_read_failed hrun hpc hr, rfl, rfl, rfl, fun _ _ => rfl, hword, rfl, rfl⟩
  | stuck f => exact step_of_read_stuck hrun hpc hr

/-! ### A fetch from the status cell -/

theorem memRead_kbsr_nonBlocking {s c : State} {answer : Option Byte} (hpolicy : s.config.kbPolicy = .nonBlocking)
    (h : conPoll s = .done answer c) :
    memRead s.config.kbsrAddr s = .done ((storeAnswer answer c).word s.config.kbsrAddr) (storeAnswer answer c) := by
  rw [memRead_kbsr, kbsrPoll_nonBlocking hpolicy, h, Result.bind_done, Result.bind_done]

theorem decode_ready : decode 0x8000#16 = .op8 0#12 := by decide

theorem decode_notReady : decode 0x0000#16 = .br 0#3 0#9 := by decide

theorem encode_op8_zero : encode (.op8 0#12) = 0x8000#16 := by decide

theorem exec_op8 (ign : BitVec 12) (s : State) : exec (.op8 ign) s = .next (raise .reservedOpcode (.op8 ign) s s) := rfl

/-- BR with an empty mask goes on behind it (R120). -/
theorem exec_br_never (off9 : BitVec 9) (s : State) : exec (.br 0#3 off9) s = .next s := by
  have hnot : branchTaken 0#3 s = false := by simp [branchTaken]
  rw [exec_br, hnot]
  rfl

theorem conPoll_done {s c : State} {answer : Option Byte} (h : conPoll s = .done answer c) : ∃ l, c = s.setPending l := by
  rcases conPoll_cases s with ⟨_, l, hp⟩ | ⟨l, hp⟩ <;> rw [hp] at h <;> cases h
  exact ⟨l, rfl⟩

/-- A step at KBSR under the non-blocking policy executes what the poll left there (R57, R63). -/
theorem step_at_kbsr {s c : State} {answer : Option Byte} (hrun : s.status = .running) (hhalt : s.pc ≠ s.config.haltPc)
    (hpc : s.pc = s.config.kbsrAddr) (hpolicy : s.config.kbPolicy = .nonBlocking) (hpoll : conPoll s = .done answer c) :
    step s = exec (decode ((storeAnswer answer c).word s.config.kbsrAddr)) ((storeAnswer answer c).setPc (s.config.kbsrAddr + 1#16)) := by
  rw [← hpc]
  refine step_of_read_done hrun hhalt ?_
  rw [hpc]
  exact memRead_kbsr_nonBlocking hpolicy hpoll

/-- Settles O43: the fetch answers what the poll left in KBSR, which decodes to opcode 1000 or to a branch never taken. -/
theorem fetchFromTheStatusCellRunsThePoll : Obligations.FetchFromTheStatusCellRunsThePoll := by
  intro s c answer hv hrun hpc hpolicy hpoll
  obtain ⟨l, rfl⟩ := conPoll_done hpoll
  obtain ⟨hhalt, hkbsr, hkbdr, hready, hnotReady⟩ := hv
  have hstep := step_at_kbsr hrun (by rw [hpc, hhalt]; decide) (hpc.trans hkbsr.symm) hpolicy hpoll
  cases answer with
  | some b =>
    obtain ⟨hstatusCell, hdataCell, _⟩ := storeAnswer_some_leaves b (s.setPending l)
    simp only [setPending_config, hkbsr, hkbdr, hready] at hstatusCell hdataCell
    rw [hkbsr, hstatusCell, decode_ready, exec_op8] at hstep
    refine ⟨_, hstep, ?_, ?_, ?_, ?_, rfl⟩
    · rw [raise_status, encode_op8_zero, setPc_pc, BitVec.add_sub_cancel]
    · rw [raise_pc, setPc_pc, BitVec.add_sub_cancel]
    · rw [raise_word, setPc_word, hdataCell (by decide)]
    · rw [raise_word, setPc_word, hstatusCell]
  | none =>
    obtain ⟨hstatusCell, hregs, hmem, _⟩ := storeAnswer_none_leaves (s.setPending l)
    simp only [setPending_config, hkbsr, hnotReady] at hstatusCell hmem
    rw [hkbsr, hstatusCell, decode_notReady, exec_br_never] at hstep
    exact ⟨_, hstep, hrun, rfl, hstatusCell, rfl, hregs, hmem, rfl⟩

end Sys2Proof.Machine
end

section
/-! PROOFS of the family other, noninterference of COND[15:3] (spec/10_state.md R30): O49.
Replacing COND[15:3] commutes with every operation of the machine: the host's side looks at no register (`HostOp.overlay`), setcc computes bits 2:0 from the
value alone, and the branch test reads bits 2:0. So it commutes with every composition of them, an instruction and a step among these. -/

namespace Sys2Proof.Machine

/-! ### The replaced bits -/

theorem reserved_append_codes (c : Word) (bits : BitVec 13) (codes : BitVec 3) (h13 : c.extractLsb' 3 13 = bits)
    (h3 : c.extractLsb' 0 3 = codes) : c = bits ++ codes := by
  rw [← h13, ← h3]
  exact ((field_append_field c 13 3 rfl).trans (field_all c)).symm

@[simp] theorem withReserved_cond (bits : BitVec 13) (s : State) : (withReserved bits s).cond = bits ++ s.cond.extractLsb' 0 3 := rfl

@[simp] theorem condCodes_withReserved (bits : BitVec 13) (s : State) : condCodes (withReserved bits s) = condCodes s :=
  BitVec.extractLsb'_append_eq_right

/-- setcc keeps bits 15:3, whatever they are, and computes bits 2:0 from the value alone (R27). -/
theorem condAfter_withReserved (v : Word) (bits : BitVec 13) (c : Word) :
    condAfter v (bits ++ c.extractLsb' 0 3) = bits ++ (condAfter v c).extractLsb' 0 3 := by
  refine reserved_append_codes _ _ _ ?_ ?_
  · rw [condAfter_reserved]
    exact BitVec.extractLsb'_append_eq_left
  · rw [condAfter_codes, condAfter_codes]

theorem branchTaken_withReserved (nzp : BitVec 3) (bits : BitVec 13) (s : State) :
    branchTaken nzp (withReserved bits s) = branchTaken nzp s := by
  rw [branchTaken, condCodes_withReserved, branchTaken]

/-! ### Operations on the host's side -/

theorem withReserved_of_hostEffects (bits : BitVec 13) {s d : State} (h : HostEffects s d) :
    overlay s.regs s.pc (bits ++ s.cond.extractLsb' 0 3) d = withReserved bits d := by
  rw [← h.regs, ← h.pc, ← h.cond]
  rfl

/-- An operation that commutes with replacing COND[15:3]. -/
def IgnoresReserved {α : Type} (op : State → Result α) : Prop :=
  ∀ bits s, op (withReserved bits s) = (op s).mapState (withReserved bits)

theorem ignoresReserved_of_overlay {α : Type} {op : State → Result α}
    (hover : ∀ regs pc cond s, op (overlay regs pc cond s) = (op s).mapState (overlay regs pc cond))
    (heffects : ∀ s, (op s).Leaves (HostEffects s)) : IgnoresReserved op := by
  intro bits s
  have hs : withReserved bits s = overlay s.regs s.pc (bits ++ s.cond.extractLsb' 0 3) s := rfl
  rw [hs, hover]
  have he := heffects s
  cases hop : op s with
  | done v d => rw [hop] at he; exact congrArg (Result.done v) (withReserved_of_hostEffects bits he)
  | failed d => rw [hop] at he; exact congrArg Result.failed (withReserved_of_hostEffects bits he)
  | stuck f => rfl

theorem IgnoresReserved.bind {α β : Type} {op : State → Result α} {f : α → State → Result β} (hop : IgnoresReserved op)
    (hf : ∀ v, IgnoresReserved (f v)) : IgnoresReserved fun s => (op s).bind f := by
  intro bits s
  show (op (withReserved bits s)).bind f = _
  rw [hop]
  exact Result.mapState_bind _ _ _ _ fun v d => hf v bits d

theorem ignoresReserved_memRead (a : Word) : IgnoresReserved (memRead a) :=
  ignoresReserved_of_overlay (fun regs pc cond s => memRead_overlay regs pc cond a s) (memRead_leaves a)

theorem ignoresReserved_conRead : IgnoresReserved conRead :=
  ignoresReserved_of_overlay conRead_overlay conRead_leaves

theorem ignoresReserved_conWrite (b : Byte) : IgnoresReserved (conWrite b) :=
  ignoresReserved_of_overlay (fun regs pc cond s => conWrite_overlay regs pc cond b s) (conWrite_leaves b)

theorem ignoresReserved_conWriteAll (bytes : List Byte) : IgnoresReserved (conWriteAll bytes) :=
  ignoresReserved_of_overlay (fun regs pc cond s => conWriteAll_overlay regs pc cond bytes s) (conWriteAll_leaves bytes)

theorem EmitLaws.ignoresReserved_scanString {emit : Word → State → Result Bool} {more : Word → Bool} (L : EmitLaws emit more)
    (k : Nat) (a : Word) : IgnoresReserved (scanString emit k a) :=
  ignoresReserved_of_overlay (fun regs pc cond s => scanString_overlay L regs pc cond k a s) (L.scanString_leaves k a)

/-! ### Operations on the core's side -/

/-- A change of the state that commutes with replacing COND[15:3]. -/
def PassesReserved (f : State → State) : Prop := ∀ bits s, f (withReserved bits s) = withReserved bits (f s)

theorem IgnoresReserved.done {α : Type} (v : α) {f : State → State} (hf : PassesReserved f) :
    IgnoresReserved fun s => .done v (f s) :=
  fun bits s => congrArg (Result.done v) (hf bits s)

theorem IgnoresReserved.comp {α : Type} {op : State → Result α} (hop : IgnoresReserved op) {f : State → State}
    (hf : PassesReserved f) : IgnoresReserved fun s => op (f s) :=
  fun bits s => (congrArg op (hf bits s)).trans (hop bits (f s))

theorem passesReserved_setcc (v : Word) : PassesReserved (setcc v) :=
  fun bits s => congrArg (fun c => { s with cond := c }) (condAfter_withReserved v bits s.cond)

theorem passesReserved_writeResult (dr : Reg) (v : Word) : PassesReserved (writeResult dr v) :=
  fun bits s => passesReserved_setcc v bits (s.setReg dr v)

theorem setccIfTrapSets_eq (v : Word) (s : State) : setccIfTrapSets v s = if s.config.trapSetsCc then setcc v s else s := by
  unfold setccIfTrapSets setcc
  split <;> rfl

theorem passesReserved_setccIfTrapSets (v : Word) : PassesReserved (setccIfTrapSets v) := by
  intro bits s
  have hconfig : (withReserved bits s).config = s.config := rfl
  rw [setccIfTrapSets_eq, setccIfTrapSets_eq, hconfig]
  split
  · exact passesReserved_setcc v bits s
  · rfl

theorem passesReserved_receiveByte (b : Byte) : PassesReserved (receiveByte b) :=
  fun bits s => passesReserved_setccIfTrapSets (zext b) bits (s.setReg 0#3 (zext b))

theorem passesReserved_trapLink : PassesReserved trapLink := fun _ _ => rfl

/-! ### Instructions and steps -/

theorem IgnoresReserved.finish {op : State → Result Unit} (hop : IgnoresReserved op) (i : Instr) (bits : BitVec 13) (s : State) :
    finish i (withReserved bits s) (op (withReserved bits s)) = mapNext (withReserved bits) (finish i s (op s)) := by
  rw [hop]
  cases op s <;> rfl

theorem ignoresReserved_loadResult (dr : Reg) (ea : Word) : IgnoresReserved (loadResult dr ea) :=
  (ignoresReserved_memRead ea).bind fun v => .done () (passesReserved_writeResult dr v)

/-- An instruction reads of COND only the condition codes, and writes it only by setcc. -/
theorem exec_withReserved (i : Instr) (bits : BitVec 13) (s : State) :
    exec i (withReserved bits s) = mapNext (withReserved bits) (exec i s) := by
  have hresult : ∀ dr v, Host.Outcome.next (writeResult dr v (withReserved bits s)) =
      (mapNext (withReserved bits) (.next (writeResult dr v s)) : Host.Outcome State Fault Refusal) :=
    fun dr v => congrArg _ (passesReserved_writeResult dr v bits s)
  cases i with
  | addReg | addImm | andReg | andImm | not | lea => exact hresult _ _
  | ld | ldr => exact (ignoresReserved_loadResult _ _).finish _ bits s
  | ldi =>
    exact ((ignoresReserved_memRead _).bind fun ea => ignoresReserved_loadResult _ ea).finish _ bits s
  | st | str | jmp | jsr | jsrr | trapUnknown | op8 | reserved => rfl
  | sti =>
    exact ((ignoresReserved_memRead _).bind fun ea => .done () (f := fun d => memWrite ea (d.reg _) d) fun _ _ => rfl).finish _ bits s
  | br nzp off9 =>
    rw [exec_br, branchTaken_withReserved]
    rfl
  | trapGetc =>
    exact ((ignoresReserved_conRead.comp passesReserved_trapLink).bind fun b => .done () (passesReserved_receiveByte b)).finish _ bits s
  | trapOut => exact ((ignoresReserved_conWrite _).comp passesReserved_trapLink).finish _ bits s
  | trapPuts => exact ((emitPuts_laws.ignoresReserved_scanString _ _).comp passesReserved_trapLink).finish _ bits s
  | trapIn =>
    exact (((ignoresReserved_conWriteAll _).comp passesReserved_trapLink).bind fun _ =>
      ignoresReserved_conRead.bind fun b => (ignoresReserved_conWriteAll _).bind fun _ =>
        .done () (passesReserved_receiveByte b)).finish _ bits s
  | trapPutsp => exact ((emitPutsp_laws.ignoresReserved_scanString _ _).comp passesReserved_trapLink).finish _ bits s
  | trapHalt =>
    exact (((ignoresReserved_conWriteAll _).comp passesReserved_trapLink).bind fun _ =>
      .done () (f := fun d => d.setPc d.config.haltPc) fun _ _ => rfl).finish _ bits s

theorem ignoresReserved_fetch (bits : BitVec 13) (s : State) :
    fetch (withReserved bits s) = (fetch s).mapState (withReserved bits) :=
  ((ignoresReserved_memRead s.pc).bind fun w => .done w (f := fun d => d.setPc (s.pc + 1#16)) fun _ _ => rfl) bits s

/-- Settles O49: whether there is a step is read from status and pc, and the fetch, the instruction and a fault of the fetch all commute. -/
theorem reservedCondBitsAreNeverRead : Obligations.ReservedCondBitsAreNeverRead := by
  intro bits s
  have hnoStep : noStep (withReserved bits s) = noStep s := rfl
  rw [step, step, hnoStep, ignoresReserved_fetch]
  cases noStep s with
  | some f => rfl
  | none =>
    cases fetch s with
    | done w d => exact exec_withReserved (decode w) bits d
    | failed d => rfl
    | stuck f => rfl

end Sys2Proof.Machine
end

section
/-! PROOFS of the family other, single instructions (spec/41_data_move.md R110 to R115, spec/42_control.md R121, spec/43_trap.md R138, spec/44_unexecutable.md):
O19, O20, O21, O24, O27, O39, O40 and O41.
A load or an STI is one operation on memory and then one write, so it comes out as the operation does (`finish_follows`); the faulting instructions are one
`raise` each (`raise_faultedFrom`). -/

namespace Sys2Proof.Machine

/-! ### Instructions that end in a write -/

/-- An instruction that is an operation and then a change of the state, `leave`, comes out as the operation does. -/
theorem finish_follows {α : Type} (op : Result α) (i : Instr) (s : State) (leave : α → State → State) {effect : α → State → State → Prop}
    (h : ∀ v d, op = .done v d → effect v d (leave v d)) :
    Follows op (encode i) s (finish i s (op.bind fun v d => .done () (leave v d))) effect := by
  cases op with
  | done v d => exact ⟨_, rfl, h v d rfl⟩
  | failed d => exact ⟨_, rfl, raise_faultedFrom _ i s d⟩
  | stuck f => rfl

/-! ### Loads -/

/-- What a load of `v` leaves, `d` being what its reads have come to (R28, R110). -/
def Loaded (dr : Reg) (s : State) (v : Word) (d t : State) : Prop :=
  t.reg dr = v ∧ CondSetFrom v s t ∧ t.pc = s.pc ∧ SameBut [dr] [] s d t

theorem loaded_writeResult (dr : Reg) (v : Word) {s d : State} (h : HostEffects s d) : Loaded dr s v d (writeResult dr v d) := by
  refine ⟨writeResult_reg_self d dr v, condSetFrom_of_condAfter (by rw [writeResult_cond, h.cond]), h.pc,
    fun r hr => ?_, fun _ _ => rfl, rfl, h.status, h.config⟩
  rw [writeResult_reg_of_ne d dr r v (List.ne_of_not_mem_cons hr), h.reg]

/-- A load whose reads complete with `v` and change nothing. -/
theorem loaded_complete {dr : Reg} {s : State} {v w : Word} {op : Result Word} {o : Host.Outcome State Fault Refusal}
    (hf : Follows op w s o (Loaded dr s)) (hop : op = .done v s) :
    ∃ t, o = .next t ∧ t.reg dr = v ∧ CondSetFrom (t.reg dr) s t ∧ t.pc = s.pc ∧ SameBut [dr] [] s s t := by
  rw [hop] at hf
  obtain ⟨t, ht, hreg, hcond, hrest⟩ := hf
  exact ⟨t, ht, hreg, by rwa [hreg], hrest⟩

theorem exec_ld (dr : Reg) (off9 : BitVec 9) (s : State) :
    exec (.ld dr off9) s = finish (.ld dr off9) s ((memRead (s.pc + sext off9) s).bind fun v d => .done () (writeResult dr v d)) := rfl

theorem exec_ldr (dr baseR : Reg) (off6 : BitVec 6) (s : State) :
    exec (.ldr dr baseR off6) s =
      finish (.ldr dr baseR off6) s ((memRead (s.reg baseR + sext off6) s).bind fun v d => .done () (writeResult dr v d)) := rfl

/-- The two reads of LDI (R111): the pointer, then the operand. -/
def readThrough (p : Word) (s : State) : Result Word := (memRead p s).bind fun ea d => memRead ea d

theorem exec_ldi (dr : Reg) (off9 : BitVec 9) (s : State) :
    exec (.ldi dr off9) s = finish (.ldi dr off9) s ((readThrough (s.pc + sext off9) s).bind fun v d => .done () (writeResult dr v d)) := by
  rw [readThrough, Result.bind_assoc]
  rfl

theorem readThrough_done {p v : Word} {s d : State} (h : readThrough p s = .done v d) : HostEffects s d := by
  obtain ⟨ea, c, hptr, hval⟩ := Result.bind_eq_done h
  exact (memRead_done hptr).1.trans (memRead_done hval).1

theorem readThrough_plain {p : Word} {s : State} (hp : p ≠ s.config.kbsrAddr) (ha : s.word p ≠ s.config.kbsrAddr) :
    readThrough p s = .done (s.word (s.word p)) s := by
  rw [readThrough, memRead_plain s p hp, Result.bind_done, memRead_plain s _ ha]

/-- Settles O19: LD follows its one read. -/
theorem ldLoadsThePcRelativeWord : Obligations.LdLoadsThePcRelativeWord := by
  intro dr off9 s
  have hf : Follows (memRead (s.pc + sext off9) s) (encode (.ld dr off9)) s (exec (.ld dr off9) s) (Loaded dr s) := by
    rw [exec_ld]
    exact finish_follows _ _ s _ fun v d h => loaded_writeResult dr v (memRead_done h).1
  exact ⟨hf, fun ha => loaded_complete hf (memRead_plain s _ ha)⟩

/-- Settles O20: LDI follows its two reads, one after the other. -/
theorem ldiLoadsThroughThePointer : Obligations.LdiLoadsThroughThePointer := by
  intro dr off9 s
  have hf : Follows (readThrough (s.pc + sext off9) s) (encode (.ldi dr off9)) s (exec (.ldi dr off9) s) (Loaded dr s) := by
    rw [exec_ldi]
    exact finish_follows _ _ s _ fun v d h => loaded_writeResult dr v (readThrough_done h)
  exact ⟨hf, fun hp ha => loaded_complete hf (readThrough_plain hp ha)⟩

/-- Settles O21: LDR follows its one read. -/
theorem ldrLoadsTheBasedWord : Obligations.LdrLoadsTheBasedWord := by
  intro dr baseR off6 s
  have hf : Follows (memRead (s.reg baseR + sext off6) s) (encode (.ldr dr baseR off6)) s (exec (.ldr dr baseR off6) s) (Loaded dr s) := by
    rw [exec_ldr]
    exact finish_follows _ _ s _ fun v d h => loaded_writeResult dr v (memRead_done h).1
  exact ⟨hf, fun ha => loaded_complete hf (memRead_plain s _ ha)⟩

/-! ### STI -/

theorem exec_sti (sr : Reg) (off9 : BitVec 9) (s : State) :
    exec (.sti sr off9) s =
      finish (.sti sr off9) s ((memRead (s.pc + sext off9) s).bind fun ea d => .done () (memWrite ea (d.reg sr) d)) := rfl

/-- What a store through a pointer leaves, `d` being what the read of the pointer has come to. -/
theorem memWrite_leaves_after (sr : Reg) (ea : Word) {s d : State} (h : HostEffects s d) :
    (memWrite ea (d.reg sr) d).word ea = s.reg sr ∧ (memWrite ea (d.reg sr) d).cond = s.cond ∧
      (memWrite ea (d.reg sr) d).pc = s.pc ∧ SameBut [] [ea] s d (memWrite ea (d.reg sr) d) := by
  obtain ⟨hword, _, _, _, hmem, _⟩ := memWrite_leaves ea (d.reg sr) d
  exact ⟨hword.trans (h.reg sr), h.cond, h.pc, fun r _ => h.reg r, hmem, rfl, h.status, h.config⟩

/-- Settles O24: STI follows the read of its pointer. -/
theorem stiStoresThroughThePointer : Obligations.StiStoresThroughThePointer := by
  intro sr off9 s
  have hf : Follows (memRead (s.pc + sext off9) s) (encode (.sti sr off9)) s (exec (.sti sr off9) s)
      (fun ea d t => t.word ea = s.reg sr ∧ t.cond = s.cond ∧ t.pc = s.pc ∧ SameBut [] [ea] s d t) := by
    rw [exec_sti]
    exact finish_follows _ _ s _ fun ea d h => memWrite_leaves_after sr ea (memRead_done h).1
  refine ⟨hf, fun ha => ?_⟩
  rw [memRead_plain s _ ha] at hf
  exact hf

/-! ### BR -/

/-- R121: with one flag set, the branch is taken exactly if the mask asks for that flag. -/
theorem branchTaken_of_oneFlag (n z p : Bool) {s : State} (h : CondOneFlag s) :
    branchTaken (BitVec.ofBool n ++ BitVec.ofBool z ++ BitVec.ofBool p) s = true ↔
      (n ∧ condCodes s = 0b100#3) ∨ (z ∧ condCodes s = 0b010#3) ∨ (p ∧ condCodes s = 0b001#3) := by
  unfold branchTaken
  rcases h with h | h | h <;> rw [h] <;> revert n z p <;> decide

/-- Settles O27: the new pc follows the branch test, and the test is the table. -/
theorem brFollowsTheDecisionTable : Obligations.BrFollowsTheDecisionTable := by
  intro n z p off9 s hflag
  exact ⟨_, exec_br _ off9 s, if_congr (branchTaken_of_oneFlag n z p hflag) rfl rfl⟩

/-! ### Instructions that only fault -/

theorem exec_trapUnknown (ign : BitVec 4) (vec8 : BitVec 8) (s : State) :
    exec (.trapUnknown ign vec8) s = .next (raise .unknownTrapVector (.trapUnknown ign vec8) s s) := rfl

theorem exec_reserved (ign : BitVec 12) (s : State) :
    exec (.reserved ign) s = .next (raise .reservedOpcode (.reserved ign) s s) := rfl

/-- The vectors with a service are 0x20 to 0x25 (R130). -/
theorem mem_serviceVectors_iff_toNat (v : BitVec 8) : v ∈ serviceVectors ↔ 0x20 ≤ v.toNat ∧ v.toNat ≤ 0x25 := by
  simp only [mem_serviceVectors_iff, ← BitVec.toNat_inj, BitVec.toNat_ofNat]
  omega

theorem wf_trapUnknown_of_outside {vec8 : BitVec 8} (h : vec8.toNat < 0x20 ∨ 0x25 < vec8.toNat) (ign : BitVec 4) :
    (Instr.trapUnknown ign vec8).wf = true := by
  rw [wf_trapUnknown, mem_serviceVectors_iff_toNat]
  omega

theorem encode_trapUnknown (ign : BitVec 4) (vec8 : BitVec 8) : encode (.trapUnknown ign vec8) = 0b1111#4 ++ ign ++ vec8 := rfl

theorem encode_reserved (ign : BitVec 12) : encode (.reserved ign) = 0b1101#4 ++ ign := rfl

theorem encode_op8 (ign : BitVec 12) : encode (.op8 ign) = 0b1000#4 ++ ign := rfl

/-- Settles O39: such a vector makes the generic TRAP well-formed, and its meaning is one raise. -/
theorem unknownVectorFaultsWithNothingWritten : Obligations.UnknownVectorFaultsWithNothingWritten := by
  intro ign vec8 s hvec
  rw [← encode_trapUnknown]
  exact ⟨decode_encode (wf_trapUnknown_of_outside hvec ign), _, exec_trapUnknown ign vec8 s, raise_faultedFrom _ _ s s⟩

/-- Settles O40: the word is that of the instruction, and its meaning is one raise. -/
theorem reservedOpcodeFaultsWithNothingWritten : Obligations.ReservedOpcodeFaultsWithNothingWritten := by
  intro ign s
  rw [← encode_reserved]
  exact ⟨decode_encode rfl, _, exec_reserved ign s, raise_faultedFrom _ _ s s⟩

/-- Settles O41: as O40. -/
theorem opcodeEightFaultsWithNothingWritten : Obligations.OpcodeEightFaultsWithNothingWritten := by
  intro ign s
  rw [← encode_op8]
  exact ⟨decode_encode rfl, _, exec_op8 ign s, raise_faultedFrom _ _ s s⟩

end Sys2Proof.Machine
end

section
/-! PROOFS of the family other, the whole machine (spec/10_state.md R22 to R29, spec/20_memory.md R53 to R55, R62, spec/60_exceptions.md R160 to R164):
O44, O46, O47, O48, O50, O51 and O53.
An instruction that has a next state has completed, and changed only what its rule names (`WritesOnly`), or has raised its one kind of fault
(`FaultsIn`): `exec_next_cases`. Each obligation looks at these two cases. -/

namespace Sys2Proof.Machine

/-! ### What a completed operation may have changed -/

/-- From `s` to `t` no register outside `rs` has changed, no cell but the one stored to and the keyboard cells, and of COND at most bits 2:0, by setcc, if
`flags`. -/
structure WritesOnly (rs : List Reg) (stored : Option Word) (flags : Bool) (s t : State) : Prop where
  reg : ∀ r, r ∉ rs → t.reg r = s.reg r
  word : ∀ a, stored ≠ some a → a ≠ s.config.kbsrAddr → a ≠ s.config.kbdrAddr → t.word a = s.word a
  cond : if flags then ∃ v, t.cond = condAfter v s.cond else t.cond = s.cond
  status : t.status = s.status
  config : t.config = s.config
  wf : s.mem.wf = true → t.mem.wf = true

theorem HostEffects.writesOnly {s t : State} (h : HostEffects s t) (rs : List Reg) (stored : Option Word) :
    WritesOnly rs stored false s t :=
  ⟨fun r _ => h.reg r, fun a _ => h.word a, h.cond, h.status, h.config, h.wf⟩

/-- The flags come last. -/
theorem WritesOnly.trans {rs : List Reg} {stored : Option Word} {flags : Bool} {s t u : State} (h : WritesOnly rs stored false s t)
    (k : WritesOnly rs stored flags t u) : WritesOnly rs stored flags s u where
  reg r hr := (k.reg r hr).trans (h.reg r hr)
  word a ha h1 h2 := (k.word a ha (h.config ▸ h1) (h.config ▸ h2)).trans (h.word a ha h1 h2)
  cond := by
    have hcond : t.cond = s.cond := h.cond
    rw [← hcond]
    exact k.cond
  status := k.status.trans h.status
  config := k.config.trans h.config
  wf := k.wf ∘ h.wf

theorem writesOnly_setReg {rs : List Reg} {r : Reg} (hr : r ∈ rs) (stored : Option Word) (s : State) (v : Word) :
    WritesOnly rs stored false s (s.setReg r v) :=
  ⟨fun q hq => reg_setReg_of_ne s r q v fun h => hq (h ▸ hr), fun _ _ _ _ => rfl, rfl, rfl, rfl, id⟩

theorem writesOnly_setPc (rs : List Reg) (stored : Option Word) (s : State) (v : Word) : WritesOnly rs stored false s (s.setPc v) :=
  ⟨fun _ _ => rfl, fun _ _ _ _ => rfl, rfl, rfl, rfl, id⟩

theorem writesOnly_setcc (rs : List Reg) (stored : Option Word) (s : State) (v : Word) : WritesOnly rs stored true s (setcc v s) :=
  ⟨fun _ _ => rfl, fun _ _ _ _ => rfl, ⟨v, rfl⟩, rfl, rfl, id⟩

theorem writesOnly_memWrite (rs : List Reg) (s : State) (a v : Word) : WritesOnly rs (some a) false s (memWrite a v s) :=
  ⟨fun _ _ => rfl, fun b hb _ _ => word_memWrite_of_ne s a b v fun h => hb (congrArg some h.symm), rfl, rfl, rfl,
    fun h => Memory.wf_write h a v⟩

theorem writesOnly_writeResult (dr : Reg) (v : Word) (s : State) : WritesOnly [dr] none true s (writeResult dr v s) :=
  (writesOnly_setReg (List.mem_singleton_self dr) none s v).trans (writesOnly_setcc _ _ _ v)

theorem writesOnly_trapLink {rs : List Reg} (h7 : 7#3 ∈ rs) (s : State) : WritesOnly rs none false s (trapLink s) :=
  writesOnly_setReg h7 none s _

theorem writesOnly_setccIfTrapSets (rs : List Reg) (stored : Option Word) (v : Word) (s : State) :
    WritesOnly rs stored s.config.trapSetsCc s (setccIfTrapSets v s) := by
  rw [setccIfTrapSets_eq]
  cases s.config.trapSetsCc with
  | true => exact writesOnly_setcc rs stored s v
  | false => exact (HostEffects.refl s).writesOnly rs stored

theorem writesOnly_receiveByte {rs : List Reg} (h0 : 0#3 ∈ rs) (b : Byte) (s : State) :
    WritesOnly rs none s.config.trapSetsCc s (receiveByte b s) :=
  (writesOnly_setReg h0 none s (zext b)).trans (writesOnly_setccIfTrapSets rs none (zext b) (s.setReg 0#3 (zext b)))

/-! ### What an instruction can end in -/

/-- The only kind of fault an instruction can raise (R161). -/
def faultKind : Instr → ErrorKind
  | .op8 _ => .reservedOpcode
  | .reserved _ => .reservedOpcode
  | .trapUnknown _ _ => .unknownTrapVector
  | _ => .consoleIOFailure

/-- The instruction has done all its rule says. -/
def CompletesIn (i : Instr) (s t : State) : Prop :=
  faultKind i = .consoleIOFailure ∧ WritesOnly (writtenRegs i) (storeAddress i s) (writesCond s.config i) s t

/-- The instruction has raised its fault, `d` being what the console and the polls had come to. -/
def FaultsIn (i : Instr) (s t : State) : Prop :=
  ∃ d, HostEffects s d ∧ t = raise (faultKind i) i s d ∧ (faultKind i ≠ .consoleIOFailure → d = s)

/-- A fault of the console leaves no trace of the link of R7. -/
theorem hostEffects_behind_link {s d : State} (h : HostEffects (trapLink s) d) : HostEffects s (overlay s.regs s.pc s.cond d) :=
  ⟨rfl, rfl, rfl, h.status, h.config, h.word, h.wf, h.output⟩

theorem leaves_bind_hostEffects {α β : Type} {r : Result α} {f : α → State → Result β} {s : State} (h : r.Leaves (HostEffects s))
    (hf : ∀ v d, (f v d).Leaves (HostEffects d)) : (r.bind f).Leaves (HostEffects s) :=
  h.bind fun v d he => (hf v d).mono fun _ => he.trans

theorem readThrough_leaves (p : Word) (s : State) : (readThrough p s).Leaves (HostEffects s) :=
  leaves_bind_hostEffects (memRead_leaves p s) fun ea d => memRead_leaves ea d

theorem promptReadEcho_leaves (prompt : List Byte) (echo : Bool) (s : State) : (promptReadEcho prompt echo s).Leaves (HostEffects s) :=
  leaves_bind_hostEffects (conWriteAll_leaves prompt s) fun _ s1 => leaves_bind_hostEffects (conRead_leaves s1) fun _ s2 =>
    leaves_bind_hostEffects (conWriteAll_leaves _ s2) fun _ s3 => HostEffects.refl s3

/-- An instruction that is an operation and then a change of the state has a next state where the operation completes, and where it fails. -/
theorem finish_next_cases {α : Type} {op : Result α} {leave : α → State → State} {i : Instr} {s t : State}
    (h : finish i s (op.bind fun v d => .done () (leave v d)) = .next t) :
    (∃ v d, op = .done v d ∧ t = leave v d) ∨ ∃ d, op = .failed d ∧ t = raise .consoleIOFailure i s d := by
  cases op with
  | done v d => cases h; exact .inl ⟨v, d, rfl, rfl⟩
  | failed d => cases h; exact .inr ⟨d, rfl, rfl⟩
  | stuck f => cases h

/-- An instruction that reads memory and then changes the state. -/
theorem cases_of_read {α : Type} {op : Result α} {leave : α → State → State} {i : Instr} {s t : State}
    (h : finish i s (op.bind fun v d => .done () (leave v d)) = .next t) (hkind : faultKind i = .consoleIOFailure)
    (hop : op.Leaves (HostEffects s))
    (hleave : ∀ v d, op = .done v d → HostEffects s d → WritesOnly (writtenRegs i) (storeAddress i s) (writesCond s.config i) s (leave v d)) :
    CompletesIn i s t ∨ FaultsIn i s t := by
  rcases finish_next_cases h with ⟨v, d, hdone, rfl⟩ | ⟨d, hfailed, rfl⟩
  · rw [hdone] at hop
    exact .inl ⟨hkind, hleave v d hdone hop⟩
  · rw [hfailed] at hop
    exact .inr ⟨d, hop, by rw [hkind], fun hne => absurd hkind hne⟩

/-- A TRAP service: an operation behind the link of R7, and then a change of the state. -/
theorem cases_of_service {α : Type} {op : Result α} {leave : α → State → State} {i : Instr} {s t : State}
    (h : finish i s (op.bind fun v d => .done () (leave v d)) = .next t) (hkind : faultKind i = .consoleIOFailure)
    (hop : op.Leaves (HostEffects (trapLink s))) (hstored : storeAddress i s = none) (h7 : 7#3 ∈ writtenRegs i)
    (hleave : ∀ v d, d.config = s.config → WritesOnly (writtenRegs i) none (writesCond s.config i) d (leave v d)) :
    CompletesIn i s t ∨ FaultsIn i s t := by
  rcases finish_next_cases h with ⟨v, d, hdone, rfl⟩ | ⟨d, hfailed, rfl⟩
  · rw [hdone] at hop
    have he : HostEffects (trapLink s) d := hop
    refine .inl ⟨hkind, ?_⟩
    rw [hstored]
    exact ((writesOnly_trapLink h7 s).trans (he.writesOnly _ _)).trans (hleave v d he.config)
  · rw [hfailed] at hop
    exact .inr ⟨_, hostEffects_behind_link hop, by rw [hkind]; rfl, fun hne => absurd hkind hne⟩

/-- A service that only asks the host. -/
theorem cases_of_plain_service {op : Result Unit} {i : Instr} {s t : State} (h : finish i s op = .next t)
    (hkind : faultKind i = .consoleIOFailure) (hop : op.Leaves (HostEffects (trapLink s))) (hstored : storeAddress i s = none)
    (h7 : 7#3 ∈ writtenRegs i) (hcond : writesCond s.config i = false) : CompletesIn i s t ∨ FaultsIn i s t := by
  rw [← Result.bind_done_unit op] at h
  refine cases_of_service (leave := fun _ d => d) h hkind hop hstored h7 fun _ d _ => ?_
  rw [hcond]
  exact (HostEffects.refl d).writesOnly _ _

/-- An instruction whose meaning is one raise. -/
theorem cases_of_raise {i : Instr} {s t : State} (h : Host.Outcome.next (raise (faultKind i) i s s) = (.next t : Host.Outcome State Fault Refusal)) :
    CompletesIn i s t ∨ FaultsIn i s t := by
  cases h
  exact .inr ⟨s, .refl s, rfl, fun _ => rfl⟩

theorem cases_of_completion {i : Instr} {s t u : State} (h : Host.Outcome.next u = (.next t : Host.Outcome State Fault Refusal))
    (hkind : faultKind i = .consoleIOFailure)
    (hu : WritesOnly (writtenRegs i) (storeAddress i s) (writesCond s.config i) s u) : CompletesIn i s t ∨ FaultsIn i s t := by
  cases h
  exact .inl ⟨hkind, hu⟩

/-- What an instruction that has a next state has come to. -/
theorem exec_next_cases {i : Instr} {s t : State} (h : exec i s = .next t) : CompletesIn i s t ∨ FaultsIn i s t := by
  cases i with
  | addReg dr | addImm dr | andReg dr | andImm dr | not dr | lea dr => exact cases_of_completion h rfl (writesOnly_writeResult dr _ s)
  | ld dr | ldr dr =>
    exact cases_of_read h rfl (memRead_leaves _ s) fun v d _ he => (he.writesOnly _ _).trans (writesOnly_writeResult dr v d)
  | ldi dr off9 =>
    rw [exec_ldi] at h
    exact cases_of_read h rfl (readThrough_leaves _ s) fun v d _ he => (he.writesOnly _ _).trans (writesOnly_writeResult dr v d)
  | st | str => exact cases_of_completion h rfl (writesOnly_memWrite _ s _ _)
  | sti sr off9 =>
    refine cases_of_read h rfl (memRead_leaves _ s) fun ea d hdone he => ?_
    rw [storeAddress, hdone]
    exact (he.writesOnly _ _).trans (writesOnly_memWrite _ d ea _)
  | br | jmp => exact cases_of_completion h rfl (writesOnly_setPc _ _ s _)
  | jsr | jsrr =>
    exact cases_of_completion h rfl ((writesOnly_setReg (List.mem_singleton_self 7#3) none s s.pc).trans (writesOnly_setPc _ _ _ _))
  | trapGetc =>
    exact cases_of_service h rfl (conRead_leaves _) rfl (.tail _ (.head _)) fun b d hc => hc ▸ writesOnly_receiveByte (.head _) b d
  | trapOut => exact cases_of_plain_service h rfl (conWrite_leaves _ _) rfl (.head _) rfl
  | trapPuts => exact cases_of_plain_service h rfl (emitPuts_laws.scanString_leaves _ _ _) rfl (.head _) rfl
  | trapIn =>
    rw [exec_trapIn] at h
    exact cases_of_service h rfl (promptReadEcho_leaves _ _ _) rfl (.tail _ (.head _)) fun b d hc => hc ▸ writesOnly_receiveByte (.head _) b d
  | trapPutsp => exact cases_of_plain_service h rfl (emitPutsp_laws.scanString_leaves _ _ _) rfl (.head _) rfl
  | trapHalt => exact cases_of_service h rfl (conWriteAll_leaves _ _) rfl (.head _) fun _ d _ => writesOnly_setPc _ _ d _
  | trapUnknown | op8 | reserved => exact cases_of_raise h

/-! ### Registers, memory and COND -/

/-- Settles O46: completed, only the named registers have changed; faulted, none. -/
theorem registersChangeOnlyWhereNamed : Obligations.RegistersChangeOnlyWhereNamed := by
  intro i s t h
  rcases exec_next_cases h with ⟨_, hw⟩ | ⟨d, _, rfl, _⟩
  · exact ⟨hw.reg, hw.config⟩
  · exact ⟨fun r _ => raise_reg _ i s d r, raise_config _ i s d⟩

/-- Settles O47: completed, only the cell stored to and the keyboard cells have changed; faulted, only the latter. -/
theorem memoryChangesOnlyByStoresAndPolls : Obligations.MemoryChangesOnlyByStoresAndPolls := by
  intro i s t h
  rcases exec_next_cases h with ⟨_, hw⟩ | ⟨d, he, rfl, _⟩
  · exact hw.word
  · exact fun a _ => he.word a

theorem condFlag_values (v : Word) : condFlag v = 0b100#3 ∨ condFlag v = 0b010#3 ∨ condFlag v = 0b001#3 := by
  unfold condFlag
  split_ifs
  · exact .inr (.inl rfl)
  · exact .inl rfl
  · exact .inr (.inr rfl)

theorem condOneFlag_of_condAfter {t : State} {v c : Word} (h : t.cond = condAfter v c) : CondOneFlag t := by
  have hcodes : condCodes t = condFlag v := by rw [condCodes, h, condAfter_codes]
  rw [CondOneFlag, hcodes]
  exact condFlag_values v

theorem condOneFlag_of_cond {s t : State} (h : t.cond = s.cond) (hs : CondOneFlag s) : CondOneFlag t := by
  have hcodes : condCodes t = condCodes s := by rw [condCodes, h, condCodes]
  rwa [CondOneFlag, hcodes]

theorem WritesOnly.cond_of_false {rs : List Reg} {stored : Option Word} {s t : State} (h : WritesOnly rs stored false s t) :
    t.cond = s.cond := h.cond

theorem WritesOnly.oneFlag_of_true {rs : List Reg} {stored : Option Word} {s t : State} (h : WritesOnly rs stored true s t) :
    CondOneFlag t := by
  obtain ⟨v, hv⟩ := h.cond
  exact condOneFlag_of_condAfter hv

/-- Settles O48: completed, COND has changed by setcc or not at all; faulted, not at all, and then the machine no longer runs. -/
theorem condIsWrittenOnlyByResultProducers : Obligations.CondIsWrittenOnlyByResultProducers := by
  intro i s t h
  rcases exec_next_cases h with ⟨_, hw⟩ | ⟨d, _, rfl, _⟩
  · refine ⟨fun hcond => ?_, fun hcond _ _ => ?_⟩ <;> rw [hcond] at hw
    · exact hw.cond_of_false
    · exact hw.oneFlag_of_true
  · refine ⟨fun _ => raise_cond _ i s d, fun _ hsame hrun => ?_⟩
    rw [hrun, raise_status] at hsame
    cases hsame

/-! ### Stores and the next fetch -/

/-- A store that has a next state has stored its register at its address. -/
theorem word_of_store {i : Instr} {s t : State} {a : Word} {sr : Reg} (h : exec i s = .next t) (ha : storeAddress i s = some a)
    (hsr : storeSource i = some sr) : t.word a = s.reg sr := by
  cases i with
  | st sr' off9 => cases ha; cases hsr; cases h; exact word_memWrite_self s _ _
  | str sr' baseR off6 => cases ha; cases hsr; cases h; exact word_memWrite_self s _ _
  | sti sr' off9 =>
    cases hsr
    rcases finish_next_cases h with ⟨ea, d, hread, rfl⟩ | ⟨d, hread, _⟩ <;> rw [storeAddress, hread] at ha <;> cases ha
    exact (word_memWrite_self d a _).trans ((memRead_done hread).1.reg sr)
  | _ => cases hsr

/-- Settles O44: a read away from KBSR is plain, so it answers the stored word; and a step there is the execution of what the read answers. -/
theorem storesAreSeenByTheNextFetch : Obligations.StoresAreSeenByTheNextFetch := by
  intro i s t a sr h ha hsr hplain
  have hconfig : t.config = s.config := (registersChangeOnlyWhereNamed i s t h).2
  have hread : memRead a t = .done (s.reg sr) t := by
    rw [memRead_plain t a (hconfig ▸ hplain), word_of_store h ha hsr]
  refine ⟨hread, fun hrun hpc hhalt => ?_⟩
  subst hpc
  exact step_of_read_done hrun (hconfig ▸ hhalt) hread

/-! ### Which words fault -/

theorem exec_of_faultKind {i : Instr} (h : faultKind i ≠ .consoleIOFailure) (s : State) :
    exec i s = .next (raise (faultKind i) i s s) := by
  cases i with
  | trapUnknown | op8 | reserved => rfl
  | _ => exact absurd rfl h

theorem faultedWith_iff {k : ErrorKind} (hk : k ≠ .consoleIOFailure) (i : Instr) {s : State} (hrun : s.status = .running) :
    (∃ t, exec i s = .next t ∧ FaultedWith k t) ↔ faultKind i = k := by
  constructor
  · rintro ⟨t, h, record, hstatus, rfl⟩
    rcases exec_next_cases h with ⟨_, hw⟩ | ⟨d, _, rfl, _⟩
    · rw [hw.status, hrun] at hstatus
      cases hstatus
    · cases hstatus
      rfl
  · rintro rfl
    exact ⟨_, exec_of_faultKind hk s, _, rfl, rfl⟩

theorem faultKind_reservedOpcode_iff (i : Instr) :
    faultKind i = .reservedOpcode ↔ (encode i).toNat / 4096 = 8 ∨ (encode i).toNat / 4096 = 13 := by
  rw [fieldsStandAtTheirPlaces]
  cases i <;> simp [faultKind] <;> omega

theorem faultKind_unknownTrapVector_iff {i : Instr} (h : i.wf = true) :
    faultKind i = .unknownTrapVector ↔
      (encode i).toNat / 4096 = 15 ∧ ((encode i).toNat % 256 < 0x20 ∨ 0x25 < (encode i).toNat % 256) := by
  rw [fieldsStandAtTheirPlaces]
  cases i with
  | trapUnknown ign vec8 =>
    rw [wf_trapUnknown, mem_serviceVectors_iff_toNat] at h
    simp [faultKind]
    omega
  | _ => simp [faultKind] <;> omega

/-- Settles O50: the word is that of the instruction it decodes to (`encode_decode`), and the kind of fault is read off its opcode and vector. -/
theorem opcodeFaultsDependOnTheWordAlone : Obligations.OpcodeFaultsDependOnTheWordAlone := by
  intro w s hrun
  rw [faultedWith_iff (by decide) _ hrun, faultedWith_iff (by decide) _ hrun, faultKind_reservedOpcode_iff,
    faultKind_unknownTrapVector_iff (decode_wf w), encode_decode]
  exact ⟨Iff.rfl, Iff.rfl⟩

/-! ### Faults of a step -/

/-- What an instruction does to the host's side, seen from before its fetch. -/
theorem hostEffects_before_fetch {s d e : State} {v : Word} (h : HostEffects s d) (he : HostEffects (d.setPc v) e) :
    HostEffects s (e.setPc s.pc) :=
  h.trans ⟨he.regs, h.pc.symm, he.cond, he.status, he.config, he.word, he.wf, he.output⟩

/-- A read that fails is one of KBSR. -/
theorem eq_kbsr_of_memRead_failed {s d : State} {a : Word} (h : memRead a s = .failed d) : a = s.config.kbsrAddr := by
  by_contra hne
  rw [memRead_plain s a hne] at h
  cases h

/-- A step that ends faulted ends in the fault of its fetch or of the instruction fetched. -/
theorem step_faulted_cases {s t : State} {record : FaultRecord} (h : step s = .next t) (hfault : t.status = .faulted record) :
    (∃ d, memRead s.pc s = .failed d ∧ t = fetchFault s d) ∨
      ∃ w d, memRead s.pc s = .done w d ∧ FaultsIn (decode w) (d.setPc (s.pc + 1#16)) t := by
  obtain ⟨hrun, _, ⟨w, d, hread, hexec⟩ | hfailed⟩ := step_next_cases h
  · rcases exec_next_cases hexec with ⟨_, hw⟩ | hf
    · have hsame : t.status = d.status := hw.status
      rw [hsame, (memRead_done hread).1.status, hrun] at hfault
      cases hfault
    · exact .inr ⟨w, d, hread, hf⟩
  · exact .inl hfailed

/-- Settles O51: a failed fetch was one of KBSR and has changed nothing but the console; and an instruction that faults leaves what it had begun with, but
for the host's side. -/
theorem faultsArePrecise : Obligations.FaultsArePrecise := by
  intro s t record h hfault
  rcases step_faulted_cases h hfault with ⟨d, hread, rfl⟩ | ⟨w, d, hread, e, he, rfl, hself⟩
  · have hpc := eq_kbsr_of_memRead_failed hread
    obtain ⟨heff, hmem⟩ := memRead_failed hread
    cases hfault
    exact ⟨rfl, rfl, rfl, fun _ _ => rfl, rfl, fun a _ => congrArg (fun m => Memory.read m a.toNat) hmem, heff.output,
      fun hne => absurd hpc hne, fun _ hne => absurd rfl hne, fun hne => absurd hpc hne⟩
  · obtain ⟨heff, hw⟩ := memRead_done hread
    have hall := hostEffects_before_fetch heff he
    have hpc : s.pc + 1#16 - 1#16 = s.pc := BitVec.add_sub_cancel _ _
    cases hfault
    refine ⟨hpc, hpc, heff.cond, fun r _ => heff.reg r, heff.config, fun a ha => ?_, hall.output, fun hne => ?_, fun _ hne => ?_,
      fun hne hkind => ?_⟩
    · rw [List.mem_pair, not_or] at ha
      exact hall.word a ha.1 ha.2
    · rw [memRead_plain s _ hne] at hread
      cases hread
      exact encode_decode _
    · obtain rfl := hself hne
      exact (encode_decode w).trans hw
    · rw [memRead_plain s _ hne] at hread
      cases hread
      obtain rfl := hself hkind
      exact ⟨rfl, fun _ => rfl⟩

/-! ### The invariant -/

theorem faultKind_core (i : Instr) :
    faultKind i = .reservedOpcode ∨ faultKind i = .unknownTrapVector ∨ faultKind i = .consoleIOFailure := by
  cases i with
  | op8 | reserved => exact .inl rfl
  | trapUnknown => exact .inr (.inl rfl)
  | _ => exact .inr (.inr rfl)

theorem recordMatchesPc_of_running {s : State} (h : s.status = .running) : RecordMatchesPc s := by
  intro record hfault
  rw [h] at hfault
  cases hfault

theorem recordMatchesPc_takeFault {k : ErrorKind} (hk : k = .reservedOpcode ∨ k = .unknownTrapVector ∨ k = .consoleIOFailure)
    (ipc w : Word) (s d : State) : RecordMatchesPc (takeFault k ipc w s d) := by
  intro record hfault
  cases hfault
  exact ⟨rfl, hk⟩

/-- An instruction of a running machine keeps the invariant. -/
theorem exec_inv {i : Instr} {s t : State} (hrun : s.status = .running) (hi : Inv s) (h : exec i s = .next t) : Inv t := by
  rcases exec_next_cases h with ⟨_, hw⟩ | ⟨d, he, rfl, _⟩
  · refine ⟨hw.wf hi.memory, ?_, recordMatchesPc_of_running (hw.status.trans hrun)⟩
    cases hcond : writesCond s.config i with
    | true => exact (hcond ▸ hw).oneFlag_of_true
    | false => exact condOneFlag_of_cond (hcond ▸ hw).cond_of_false hi.cond
  · exact ⟨he.wf hi.memory, condOneFlag_of_cond (raise_cond _ i s d) hi.cond, recordMatchesPc_takeFault (faultKind_core i) _ _ s d⟩

theorem HostEffects.inv {s d : State} (h : HostEffects s d) (hi : Inv s) : Inv d where
  memory := h.wf hi.memory
  cond := condOneFlag_of_cond h.cond hi.cond
  record record hfault := by
    rw [h.pc]
    exact hi.record record (h.status ▸ hfault)

/-- Settles O53: the fetch keeps the invariant, the instruction keeps it, and so does the fault of a failed fetch. -/
theorem stepKeepsTheInvariant : Obligations.StepKeepsTheInvariant := by
  intro s t hi h
  obtain ⟨hrun, _, ⟨w, d, hread, hexec⟩ | ⟨d, hread, rfl⟩⟩ := step_next_cases h
  · have heff := (memRead_done hread).1
    have hd := heff.inv hi
    have hrund : d.status = .running := heff.status.trans hrun
    exact exec_inv (s := d.setPc (s.pc + 1#16)) hrund ⟨hd.memory, hd.cond, recordMatchesPc_of_running hrund⟩ hexec
  · exact ⟨(memRead_failed hread).1.wf hi.memory, condOneFlag_of_cond rfl hi.cond, recordMatchesPc_takeFault (.inr (.inr rfl)) _ _ s d⟩

end Sys2Proof.Machine
end

section
/-! PROOFS of the family other, reset, load and run (spec/10_state.md R34, R44; spec/70_reset_and_hazards.md R180 to R186, R191): O52, O54, O55, O57, O58 and O59.
A round of the run loop either ends the run (`EndsIn`) or takes a step; so a run is some steps and then its end (`runFor_cases`), and steps that lead
to an end make the run end so (`EndsIn.runFor_eq`). -/

namespace Sys2Proof.Machine

/-! ### Reset -/

theorem condOneFlag_reset : CondOneFlag State.reset := .inr (.inl rfl)

/-- Settles O52: a machine just reset runs, so it has no fault record. -/
theorem invariantHoldsAtReset : Obligations.InvariantHoldsAtReset :=
  ⟨⟨reset_mem_wf, condOneFlag_reset, recordMatchesPc_of_running rfl⟩,
    fun _ _ hmem hflag => ⟨hmem, hflag, recordMatchesPc_of_running rfl⟩⟩

theorem resetWith_reg (p : Config.Params) (host : Console) (k : Nat) (h : k < 8) :
    (State.resetWith p host).reg (BitVec.ofNat 3 k) = p.regReset[k] := by
  have hk : (BitVec.ofNat 3 k).toNat = k := by rw [BitVec.toNat_ofNat, Nat.mod_eq_of_lt h]
  simp only [State.reg, resetWith_regs, hk]

theorem reset_reg (r : Reg) : State.reset.reg r = 0x0000#16 :=
  Vector.getElem_replicate r.isLt

theorem specValues_reset : SpecValues State.reset.config := ⟨rfl, rfl, rfl, rfl, rfl⟩

theorem boot_even (p : Config.Params) (host : Console) (hi lo : Byte) {rest : List Byte} (h : rest.length % 2 = 0) :
    ∃ s, boot p host (some (hi :: lo :: rest)) = .ok s ∧ s.pc.toNat = 256 * hi.toNat + lo.toNat ∧
      SameRegsBut [] (State.resetWith p host) s ∧ s.cond = p.condReset ∧ s.status = .running ∧ s.console = host ∧ s.config = p := by
  obtain ⟨m, hm⟩ := storeWords_eq_withMem (wordOfBytes hi lo) (wordsOfBytes rest) (State.resetWith p host)
  refine ⟨_, loadImage_even hi lo h _, wordOfBytes_toNat hi lo, ?_⟩
  rw [hm]
  exact ⟨fun _ _ => rfl, rfl, rfl, rfl, rfl⟩

/-- Settles O54: the reset values are the parameters, and a load changes memory and the pc only. -/
theorem resetLeavesTheSpecsValues : Obligations.ResetLeavesTheSpecsValues :=
  ⟨fun p host => ⟨resetWith_reg p host, rfl, fun _ => rfl, rfl, fun hi lo _ => boot_even p host hi lo⟩,
    specValues_reset, rfl, reset_reg, rfl, fun _ => rfl, rfl⟩

/-! ### Loading -/

/-- Settles O55: an even image that is not empty has a first word, its origin. -/
theorem badImagesAreRejected : Obligations.BadImagesAreRejected := by
  intro s
  refine ⟨rfl, rfl, ?_⟩
  rintro (_ | ⟨hi, _ | ⟨lo, rest⟩⟩) heven hne
  · exact absurd rfl hne
  · simp at heven
  · exact ⟨_, loadImage_even hi lo (by simp only [List.length_cons] at heven; omega) s⟩

theorem withFetchWord_eq_placeWord (s : State) (w : Word) : s.withFetchWord 16 w.toNat = placeWord w s := by
  rw [State.withFetchWord, Nat.mod_eq_of_lt w.isLt, BitVec.ofNat_toNat, BitVec.setWidth_eq]

theorem placeWord_word (w : Word) (s : State) (a : Word) : (placeWord w s).word a = if a = placePc s then w else s.word a :=
  word_setWord s (placePc s) a w

theorem placePc_of_plain {s : State} (h1 : s.pc ≠ s.config.haltPc) (h2 : s.pc ≠ s.config.kbsrAddr) : placePc s = s.pc := by
  simp [placePc, plainFetch, h1, h2]

/-- Settles O59: the pc a word is placed at is neither HALT_PC nor KBSR (`placePc_plain`), so the next step is a plain fetch of it. -/
theorem placedWordIsTheNextInstruction : Obligations.PlacedWordIsTheNextInstruction := by
  intro s w
  obtain ⟨hhalt, hkbsr⟩ := placePc_plain s
  have hread : memRead (placePc s) (placeWord w s) = .done w (placeWord w s) := by
    rw [memRead_plain (placeWord w s) _ hkbsr, placeWord_word, if_pos rfl]
  refine ⟨_, withFetchWord_eq_placeWord s w, step_of_read_done rfl hhalt hread, fun _ _ => rfl, fun a ha => ?_, rfl, rfl, rfl, placePc_of_plain⟩
  exact (placeWord_word w s a).trans (if_neg (List.ne_of_not_mem_cons ha))

/-! ### Why a step has no next state -/

/-- A result that never completes waits for input or scans for ever. -/
def Result.HangsOnly {α : Type} : Result α → Prop
  | .done _ _ => True
  | .failed _ => True
  | .stuck f => f = .waitingForInput ∨ f = .scanNeverEnds

theorem hangsOnly_done {α : Type} (v : α) (s : State) : (Result.done v s).HangsOnly := trivial

theorem Result.HangsOnly.bind {α β : Type} {r : Result α} {f : α → State → Result β} (h : r.HangsOnly)
    (hf : ∀ v d, (f v d).HangsOnly) : (r.bind f).HangsOnly := by
  cases r with
  | done v d => exact hf v d
  | failed d => trivial
  | stuck w => exact h

theorem memRead_hangsOnly (a : Word) (s : State) : (memRead a s).HangsOnly := by
  cases h : memRead a s with
  | done v d => trivial
  | failed d => trivial
  | stuck f => exact .inl (memRead_stuck h)

theorem conRead_hangsOnly (s : State) : (conRead s).HangsOnly := by
  rcases conRead_cases s with ⟨b, l, h⟩ | ⟨l, h⟩ | h <;> rw [h]
  · trivial
  · trivial
  · exact .inl rfl

theorem conWriteAll_hangsOnly (bytes : List Byte) (s : State) : (conWriteAll bytes s).HangsOnly := by
  rcases conWriteAll_cases bytes s with ⟨left, h⟩ | ⟨n, left, h⟩ <;> rw [h] <;> trivial

theorem conWrite_hangsOnly (b : Byte) (s : State) : (conWrite b s).HangsOnly := by
  rw [← conWriteAll_singleton]
  exact conWriteAll_hangsOnly [b] s

theorem EmitLaws.scanString_hangsOnly {emit : Word → State → Result Bool} {more : Word → Bool} (L : EmitLaws emit more) (k : Nat)
    (a : Word) (s : State) : (scanString emit k a s).HangsOnly := by
  induction k generalizing a s with
  | zero => exact .inr rfl
  | succ k ih =>
    refine (memRead_hangsOnly a s).bind fun w d => ?_
    rcases L.effects (w := w) (s := d) with ⟨_ | _, bytes, left, h⟩ | ⟨bytes, left, h⟩ <;> rw [h]
    · trivial
    · exact ih _ _
    · trivial

/-- A next state, or one of the two stops of a step that never completes (R191). -/
def NextOrHangs (o : Host.Outcome State Fault Refusal) : Prop :=
  (∃ t, o = .next t) ∨ ∃ f, o = .fault f ∧ (f = .waitingForInput ∨ f = .scanNeverEnds)

theorem Result.HangsOnly.finish {r : Result Unit} (h : r.HangsOnly) (i : Instr) (s : State) : NextOrHangs (finish i s r) := by
  cases r with
  | done u d => exact .inl ⟨_, rfl⟩
  | failed d => exact .inl ⟨_, rfl⟩
  | stuck f => exact .inr ⟨f, rfl, h⟩

theorem loadResult_hangsOnly (dr : Reg) (ea : Word) (s : State) : (loadResult dr ea s).HangsOnly :=
  (memRead_hangsOnly ea s).bind fun _ _ => trivial

theorem exec_nextOrHangs (i : Instr) (s : State) : NextOrHangs (exec i s) := by
  cases i with
  | addReg | addImm | andReg | andImm | not | lea | st | str | br | jmp | jsr | jsrr | trapUnknown | op8 | reserved => exact .inl ⟨_, rfl⟩
  | ld | ldr => exact (loadResult_hangsOnly _ _ s).finish _ s
  | ldi => exact ((memRead_hangsOnly _ s).bind fun _ _ => loadResult_hangsOnly _ _ _).finish _ s
  | sti => exact ((memRead_hangsOnly _ s).bind fun _ _ => hangsOnly_done _ _).finish _ s
  | trapGetc => exact ((conRead_hangsOnly _).bind fun _ _ => hangsOnly_done _ _).finish _ s
  | trapOut => exact (conWrite_hangsOnly _ _).finish _ s
  | trapPuts => exact (emitPuts_laws.scanString_hangsOnly _ _ _).finish _ s
  | trapIn =>
    exact ((conWriteAll_hangsOnly _ _).bind fun _ _ => (conRead_hangsOnly _).bind fun _ _ =>
      (conWriteAll_hangsOnly _ _).bind fun _ _ => hangsOnly_done _ _).finish _ s
  | trapPutsp => exact (emitPutsp_laws.scanString_hangsOnly _ _ _).finish _ s
  | trapHalt => exact ((conWriteAll_hangsOnly _ _).bind fun _ _ => hangsOnly_done _ _).finish _ s

theorem step_nextOrHangs {s : State} (hrun : s.status = .running) (hpc : s.pc ≠ s.config.haltPc) : NextOrHangs (step s) := by
  cases hr : memRead s.pc s with
  | done w d => rw [step_of_read_done hrun hpc hr]; exact exec_nextOrHangs _ _
  | failed d => rw [step_of_read_failed hrun hpc hr]; exact .inl ⟨_, rfl⟩
  | stuck f => rw [step_of_read_stuck hrun hpc hr]; exact .inr ⟨f, rfl, .inl (memRead_stuck hr)⟩

/-! ### Rounds of the run loop -/

theorem runFor_faulted (k : Nat) {s : State} {record : FaultRecord} (h : s.status = .faulted record) :
    runFor (k + 1) s = .faulted record s := by
  rw [runFor, h]

theorem runFor_halted (k : Nat) {s : State} (hrun : s.status = .running) (hpc : s.pc = s.config.haltPc) : runFor (k + 1) s = .halted s := by
  rw [runFor, hrun]
  exact if_pos hpc

theorem runFor_step (k : Nat) {s t : State} (h : step s = .next t) : runFor (k + 1) s = runFor k t := by
  obtain ⟨hrun, hpc, _⟩ := step_next_cases h
  simp only [runFor, hrun, if_neg hpc, h]

theorem runFor_hangs (k : Nat) {s : State} {f : Fault} (hrun : s.status = .running) (hpc : s.pc ≠ s.config.haltPc) (h : step s = .fault f) :
    runFor (k + 1) s = .hangs f s := by
  simp only [runFor, hrun, if_neg hpc, h]

/-- A run that has come to `s` ends there, in this way. -/
inductive EndsIn (s : State) : RunEnd → Prop where
  | halted (hrun : s.status = .running) (hpc : s.pc = s.config.haltPc) : EndsIn s (.halted s)
  | faulted {record : FaultRecord} (h : s.status = .faulted record) : EndsIn s (.faulted record s)
  | hangs {f : Fault} (hrun : s.status = .running) (hpc : s.pc ≠ s.config.haltPc) (h : step s = .fault f)
      (hf : f = .waitingForInput ∨ f = .scanNeverEnds) : EndsIn s (.hangs f s)

theorem EndsIn.runFor_succ {s : State} {e : RunEnd} (h : EndsIn s e) (k : Nat) : runFor (k + 1) s = e := by
  cases h with
  | halted hrun hpc => exact runFor_halted k hrun hpc
  | faulted h => exact runFor_faulted k h
  | hangs hrun hpc h _ => exact runFor_hangs k hrun hpc h

/-- A round ends the run or takes a step. -/
theorem endsIn_or_step (s : State) : (∃ e, EndsIn s e) ∨ ∃ t, step s = .next t := by
  cases hrun : s.status with
  | faulted record => exact .inl ⟨_, .faulted hrun⟩
  | running =>
    by_cases hpc : s.pc = s.config.haltPc
    · exact .inl ⟨_, .halted hrun hpc⟩
    · rcases step_nextOrHangs hrun hpc with h | ⟨f, h, hf⟩
      · exact .inr h
      · exact .inl ⟨_, .hangs hrun hpc h hf⟩

theorem run_succ (M : Host.Core) (j : Nat) {s u : M.State} (h : M.step s = .next u) : M.run (j + 1) s = M.run j u := by
  rw [Host.Core.run, h]

theorem run_succ_next {M : Host.Core} {j : Nat} {s t : M.State} (h : M.run (j + 1) s = .next t) :
    ∃ u, M.step s = .next u ∧ M.run j u = .next t := by
  rw [Host.Core.run] at h
  cases hs : M.step s with
  | next u => exact ⟨u, rfl, by rwa [hs] at h⟩
  | fault f => rw [hs] at h; cases h
  | refused r => rw [hs] at h; cases h

/-- What a run of `k` rounds comes to: an end that fewer steps lead to, or where `k` steps lead. -/
theorem runFor_cases (k : Nat) (s : State) :
    (∃ j t, j < k ∧ Host.Core.run Sys2Proof.core j s = .next t ∧ EndsIn t (runFor k s)) ∨
      ∃ t, runFor k s = .unfinished t ∧ Host.Core.run Sys2Proof.core k s = .next t := by
  induction k generalizing s with
  | zero => exact .inr ⟨s, rfl, rfl⟩
  | succ k ih =>
    rcases endsIn_or_step s with ⟨e, he⟩ | ⟨u, hu⟩
    · exact .inl ⟨0, s, Nat.succ_pos k, rfl, (he.runFor_succ k).symm ▸ he⟩
    · have hsucc : ∀ j, Host.Core.run Sys2Proof.core (j + 1) s = Host.Core.run Sys2Proof.core j u := fun j =>
        run_succ Sys2Proof.core j hu
      rw [runFor_step k hu, hsucc]
      refine (ih u).imp ?_ id
      rintro ⟨j, t, hj, hrun, hend⟩
      exact ⟨j + 1, t, Nat.succ_lt_succ hj, (hsucc j).trans hrun, hend⟩

/-- Steps taken are rounds used up. -/
theorem runFor_of_run {j : Nat} {s t : State} (h : Host.Core.run Sys2Proof.core j s = .next t) (k : Nat) : runFor (j + k) s = runFor k t := by
  induction j generalizing s with
  | zero =>
    cases h
    rw [Nat.zero_add]
  | succ j ih =>
    obtain ⟨u, hu, hrest⟩ := run_succ_next h
    rw [Nat.succ_add, runFor_step _ hu, ih hrest]

/-- Steps that lead to an end make every longer run end so. -/
theorem EndsIn.runFor_eq {s t : State} {e : RunEnd} {j k : Nat} (h : EndsIn t e) (hrun : Host.Core.run Sys2Proof.core j s = .next t)
    (hj : j < k) : runFor k s = e := by
  obtain ⟨i, rfl⟩ := Nat.exists_eq_add_of_lt hj
  rw [Nat.add_assoc, runFor_of_run hrun, h.runFor_succ]

/-- Settles O57: the rounds are the equations of `runFor`, and an end is reached by fewer steps, which make every longer run end so. -/
theorem runsEndHaltedOrFaulted : Obligations.RunsEndHaltedOrFaulted := by
  intro k s
  refine ⟨fun _ h => runFor_faulted k h, fun hrun hpc => runFor_halted k hrun hpc, fun hrun hpc => ?_, ?_⟩
  · rcases step_nextOrHangs hrun hpc with ⟨t, h⟩ | ⟨f, h, _⟩ <;> rw [h]
    · exact runFor_step k h
    · exact runFor_hangs k hrun hpc h
  · rcases runFor_cases k s with ⟨j, t, hj, hsteps, hend⟩ | ⟨t, hunfinished, hsteps⟩
    · have hlonger : ∀ i, runFor (k + i) s = runFor k s := fun i => hend.runFor_eq hsteps (Nat.lt_add_right i hj)
      generalize runFor k s = e at hend hlonger
      cases hend with
      | halted hrun hpc => exact ⟨hrun, hpc, ⟨j, hj, hsteps⟩, hlonger⟩
      | faulted h => exact ⟨h, ⟨j, hj, hsteps⟩, hlonger⟩
      | hangs hrun hpc h hf => exact ⟨hrun, hpc, h, hf, ⟨j, hj, hsteps⟩, hlonger⟩
    · rw [hunfinished]
      exact hsteps

/-! ### The status output -/

/-- What the status output presents of the end of a run (R44). -/
def presented : RunEnd → StatusOutput
  | .halted _ => .halted
  | .faulted record _ => .coreFault record
  | .hangs _ _ => .none
  | .unfinished _ => .none

theorem statusOutput_of_error {p : Config.Params} {host : Console} {image : Option (List Byte)} {kind : ErrorKind}
    (h : boot p host image = .error kind) (rounds : Nat) : statusOutput rounds p host image = .loadFault kind := by
  rw [statusOutput, h]

theorem statusOutput_of_ok {p : Config.Params} {host : Console} {image : Option (List Byte)} {s : State}
    (h : boot p host image = .ok s) (rounds : Nat) : statusOutput rounds p host image = presented (runFor rounds s) := by
  rw [statusOutput, h]
  dsimp only
  cases runFor rounds s <;> rfl

theorem presented_ne_loadFault (e : RunEnd) (kind : ErrorKind) : presented e ≠ .loadFault kind := by
  cases e <;> nofun

/-- What is presented, other than nothing, is presented of an end that fewer steps lead to. -/
theorem presented_iff {o : StatusOutput} (ho : o ≠ .none) (k : Nat) (s : State) : presented (runFor k s) = o ↔
    ∃ j t, j < k ∧ Host.Core.run Sys2Proof.core j s = .next t ∧ ∃ e, EndsIn t e ∧ presented e = o := by
  constructor
  · intro h
    rcases runFor_cases k s with ⟨j, t, hj, hsteps, hend⟩ | ⟨t, hunfinished, _⟩
    · exact ⟨j, t, hj, hsteps, _, hend, h⟩
    · rw [hunfinished] at h
      exact absurd h.symm ho
  · rintro ⟨j, t, hj, hsteps, e, hend, rfl⟩
    rw [hend.runFor_eq hsteps hj]

theorem endsIn_presented_halted_iff (t : State) :
    (∃ e, EndsIn t e ∧ presented e = .halted) ↔ t.status = .running ∧ t.pc = t.config.haltPc := by
  constructor
  · rintro ⟨e, hend, he⟩
    cases hend with
    | halted hrun hpc => exact ⟨hrun, hpc⟩
    | faulted h => cases he
    | hangs hrun hpc h hf => cases he
  · rintro ⟨hrun, hpc⟩
    exact ⟨_, .halted hrun hpc, rfl⟩

theorem endsIn_presented_coreFault_iff (t : State) (record : FaultRecord) :
    (∃ e, EndsIn t e ∧ presented e = .coreFault record) ↔ t.status = .faulted record := by
  constructor
  · rintro ⟨e, hend, he⟩
    cases hend with
    | halted hrun hpc => cases he
    | faulted h => cases he; exact h
    | hangs hrun hpc h hf => cases he
  · exact fun h => ⟨_, .faulted h, rfl⟩

theorem presented_halted_iff (k : Nat) (s : State) : presented (runFor k s) = .halted ↔
    ∃ j t, j < k ∧ Host.Core.run Sys2Proof.core j s = .next t ∧ t.status = .running ∧ t.pc = t.config.haltPc :=
  (presented_iff (o := .halted) (by decide) k s).trans <| exists_congr fun _ => exists_congr fun t =>
    and_congr_right fun _ => and_congr_right fun _ => endsIn_presented_halted_iff t

theorem presented_coreFault_iff (k : Nat) (s : State) (record : FaultRecord) : presented (runFor k s) = .coreFault record ↔
    ∃ j t, j < k ∧ Host.Core.run Sys2Proof.core j s = .next t ∧ t.status = .faulted record :=
  (presented_iff (o := .coreFault record) nofun k s).trans <| exists_congr fun _ => exists_congr fun t =>
    and_congr_right fun _ => and_congr_right fun _ => endsIn_presented_coreFault_iff t record

/-- Settles O58: after a load the status output presents the end of the run, and each end is known by the state it stands in. -/
theorem statusOutputPresentsTheEnd : Obligations.StatusOutputPresentsTheEnd := by
  intro rounds p host image
  cases hboot : boot p host image with
  | error kind => exact statusOutput_of_error hboot rounds
  | ok s =>
    simp only [statusOutput_of_ok hboot]
    exact ⟨presented_halted_iff rounds s, presented_coreFault_iff rounds s, presented_ne_loadFault _⟩

end Sys2Proof.Machine
end
